-- ==== Sys2Proof/Word.lean ====
section
/-! DEFINITION. The words of the machine: bytes, 16-bit words, register numbers (spec/10_state.md R20, R21).
All values are unsigned (spec/00_scope.md R9). -/

namespace Sys2Proof

/-- A byte: a memory cell, a general register, `DT` or `ST` (spec/10_state.md R20). -/
abbrev Byte := BitVec 8

/-- A 16-bit value: an opcode, `I`, `PC`, a stack slot (spec/10_state.md R20). -/
abbrev Word := BitVec 16

/-- The number of a general register; every 4-bit field value names one (spec/10_state.md R21). -/
abbrev Reg := Fin 16

/-- The flag register `V[0xF]` (spec/10_state.md R43). -/
abbrev vf : Reg := 15

end Sys2Proof
end

