-- ==== Sys2Proof/Machine/Flags.lean ====
section
/-! DEFINITION. Every value an instruction writes to the flag register `V[0xF]` (spec/10_state.md R43). The last of its
table, the collision flag of `DRW`, is set pixel by pixel in Machine/Display.lean with `flagByte`. -/

namespace Sys2Proof.Machine

/-- A condition as the byte stored in `V[0xF]`: 1 or 0. -/
def flagByte (c : Bool) : Byte := if c then 1 else 0

/-- `sum > 255 ? 1 : 0` (spec/41_register_alu.md R148). -/
def carryFlag (sum : Nat) : Byte := flagByte (decide (sum > 255))

/-- `a > b ? 1 : 0`, strictly greater (spec/41_register_alu.md R149, R151). -/
def greaterFlag (a b : Byte) : Byte := flagByte (decide (a.toNat > b.toNat))

/-- `a & 1`, the bit a right shift drops (spec/41_register_alu.md R150). -/
def lowBitFlag (a : Byte) : Byte := a &&& 1

/-- `(a & 0x80) != 0 ? 1 : 0`, the bit a left shift drops (spec/41_register_alu.md R152). -/
def highBitFlag (a : Byte) : Byte := flagByte (a &&& 0x80 != 0)

end Sys2Proof.Machine
end

