-- ==== Sys2Proof/Syntax.lean ====
section
/-! DEFINITION. The 34 instructions, one constructor per row of the table of spec/30_encoding.md R96, in its order. -/

namespace Sys2Proof

/-- An instruction with its operand fields (spec/30_encoding.md R92, R94): `x` and `y` are register numbers, `kk` is
bits 7:0, `addr` bits 11:0, `n` bits 3:0. `shrVx` and `shlVx` keep the encoded and ignored `y` (R96), so that an
instruction determines its word. -/
inductive Instr where
  | cls
  | ret
  | jpAddr (addr : BitVec 12)
  | callAddr (addr : BitVec 12)
  | seVxKk (x : Reg) (kk : Byte)
  | sneVxKk (x : Reg) (kk : Byte)
  | seVxVy (x y : Reg)
  | ldVxKk (x : Reg) (kk : Byte)
  | addVxKk (x : Reg) (kk : Byte)
  | ldVxVy (x y : Reg)
  | orVxVy (x y : Reg)
  | andVxVy (x y : Reg)
  | xorVxVy (x y : Reg)
  | addVxVy (x y : Reg)
  | subVxVy (x y : Reg)
  | shrVx (x y : Reg)
  | subnVxVy (x y : Reg)
  | shlVx (x y : Reg)
  | sneVxVy (x y : Reg)
  | ldIAddr (addr : BitVec 12)
  | jpV0Addr (addr : BitVec 12)
  | rndVxKk (x : Reg) (kk : Byte)
  | drwVxVyN (x y : Reg) (n : BitVec 4)
  | skpVx (x : Reg)
  | sknpVx (x : Reg)
  | ldVxDt (x : Reg)
  | ldVxK (x : Reg)
  | ldDtVx (x : Reg)
  | ldStVx (x : Reg)
  | addIVx (x : Reg)
  | ldFVx (x : Reg)
  | ldBVx (x : Reg)
  | ldMemVx (x : Reg)
  | ldVxMem (x : Reg)
  deriving DecidableEq, Repr

end Sys2Proof
end

