-- ==== Sys2Proof/WellFormed.lean ====
section
/-! DEFINITION. What must be checked before a term is taken as meaningful. The operands of an instruction are typed by
the width of their fields (spec/30_encoding.md R92), so no ill-formed instruction can be written and no instruction
needs a check (spec/30_encoding.md R98: no value of an operand field is refused). What is left to check is what the
host hands the core. -/

namespace Sys2Proof

/-- The room for a program image, `0x1000 - 0x200` bytes (spec/50_interfaces.md R236, R237). -/
def imageRoom : Nat := 3584

/-- A program image the loader accepts: at most 3584 bytes (spec/50_interfaces.md R236, R237). -/
def imageWellFormed (bytes : List Byte) : Bool := decide (bytes.length ≤ imageRoom)

/-- A key number the keyboard may be asked about or may answer: 0 to 0xF (spec/50_interfaces.md R242). -/
def keyWellFormed (k : Byte) : Bool := decide (k.toNat ≤ 15)

end Sys2Proof
end

