-- ==== Sys2Proof/Decode.lean ====
section
/-! DEFINITION. The decoder and the encoder, both from the tables of spec/30_encoding.md (R91, R92, R94, R96). -/

namespace Sys2Proof

/-! ### The fields of an opcode (spec/30_encoding.md R92) -/

/-- A 4-bit field as a register number (spec/10_state.md R21). -/
def regOfBits (b : BitVec 4) : Reg := b.toFin

/-- A register number as its 4-bit field. -/
def regBits (r : Reg) : BitVec 4 := BitVec.ofFin r

/-- `addr`, bits 11:0. -/
def addrOf (w : Word) : BitVec 12 := w.extractLsb' 0 12

/-- `x`, bits 11:8. -/
def xOf (w : Word) : Reg := regOfBits (w.extractLsb' 8 4)

/-- `y`, bits 7:4. -/
def yOf (w : Word) : Reg := regOfBits (w.extractLsb' 4 4)

/-- `kk`, bits 7:0. -/
def kkOf (w : Word) : Byte := w.extractLsb' 0 8

/-- `n`, bits 3:0. -/
def nOf (w : Word) : BitVec 4 := w.extractLsb' 0 4

/-! ### The instruction table (spec/30_encoding.md R96) -/

/-- One row of the table of spec/30_encoding.md R96: the fixed bits, and the instruction its fields make. -/
structure OpcodeRow where
  mnemonic : String
  fixed : Word
  mask : Word
  build : Word → Instr

/-- Whether a word matches a row: `(w & mask) = match` (spec/30_encoding.md R95). -/
def OpcodeRow.selects (r : OpcodeRow) (w : Word) : Bool := w &&& r.mask == r.fixed

/-- Rows 1 to 7 of spec/30_encoding.md R96. -/
def opcodeRowsA : List OpcodeRow :=
  [⟨"CLS", 0x00E0, 0xFFFF, fun _ => .cls⟩,
   ⟨"RET", 0x00EE, 0xFFFF, fun _ => .ret⟩,
   ⟨"JP_addr", 0x1000, 0xF000, fun w => .jpAddr (addrOf w)⟩,
   ⟨"CALL_addr", 0x2000, 0xF000, fun w => .callAddr (addrOf w)⟩,
   ⟨"SE_Vx_kk", 0x3000, 0xF000, fun w => .seVxKk (xOf w) (kkOf w)⟩,
   ⟨"SNE_Vx_kk", 0x4000, 0xF000, fun w => .sneVxKk (xOf w) (kkOf w)⟩,
   ⟨"SE_Vx_Vy", 0x5000, 0xF00F, fun w => .seVxVy (xOf w) (yOf w)⟩]

/-- Rows 8 to 18 of spec/30_encoding.md R96. -/
def opcodeRowsB : List OpcodeRow :=
  [⟨"LD_Vx_kk", 0x6000, 0xF000, fun w => .ldVxKk (xOf w) (kkOf w)⟩,
   ⟨"ADD_Vx_kk", 0x7000, 0xF000, fun w => .addVxKk (xOf w) (kkOf w)⟩,
   ⟨"LD_Vx_Vy", 0x8000, 0xF00F, fun w => .ldVxVy (xOf w) (yOf w)⟩,
   ⟨"OR_Vx_Vy", 0x8001, 0xF00F, fun w => .orVxVy (xOf w) (yOf w)⟩,
   ⟨"AND_Vx_Vy", 0x8002, 0xF00F, fun w => .andVxVy (xOf w) (yOf w)⟩,
   ⟨"XOR_Vx_Vy", 0x8003, 0xF00F, fun w => .xorVxVy (xOf w) (yOf w)⟩,
   ⟨"ADD_Vx_Vy", 0x8004, 0xF00F, fun w => .addVxVy (xOf w) (yOf w)⟩,
   ⟨"SUB_Vx_Vy", 0x8005, 0xF00F, fun w => .subVxVy (xOf w) (yOf w)⟩,
   ⟨"SHR_Vx", 0x8006, 0xF00F, fun w => .shrVx (xOf w) (yOf w)⟩,
   ⟨"SUBN_Vx_Vy", 0x8007, 0xF00F, fun w => .subnVxVy (xOf w) (yOf w)⟩,
   ⟨"SHL_Vx", 0x800E, 0xF00F, fun w => .shlVx (xOf w) (yOf w)⟩]

/-- Rows 19 to 25 of spec/30_encoding.md R96. -/
def opcodeRowsC : List OpcodeRow :=
  [⟨"SNE_Vx_Vy", 0x9000, 0xF00F, fun w => .sneVxVy (xOf w) (yOf w)⟩,
   ⟨"LD_I_addr", 0xA000, 0xF000, fun w => .ldIAddr (addrOf w)⟩,
   ⟨"JP_V0_addr", 0xB000, 0xF000, fun w => .jpV0Addr (addrOf w)⟩,
   ⟨"RND_Vx_kk", 0xC000, 0xF000, fun w => .rndVxKk (xOf w) (kkOf w)⟩,
   ⟨"DRW_Vx_Vy_n", 0xD000, 0xF000, fun w => .drwVxVyN (xOf w) (yOf w) (nOf w)⟩,
   ⟨"SKP_Vx", 0xE09E, 0xF0FF, fun w => .skpVx (xOf w)⟩,
   ⟨"SKNP_Vx", 0xE0A1, 0xF0FF, fun w => .sknpVx (xOf w)⟩]

/-- Rows 26 to 34 of spec/30_encoding.md R96. -/
def opcodeRowsD : List OpcodeRow :=
  [⟨"LD_Vx_DT", 0xF007, 0xF0FF, fun w => .ldVxDt (xOf w)⟩,
   ⟨"LD_Vx_K", 0xF00A, 0xF0FF, fun w => .ldVxK (xOf w)⟩,
   ⟨"LD_DT_Vx", 0xF015, 0xF0FF, fun w => .ldDtVx (xOf w)⟩,
   ⟨"LD_ST_Vx", 0xF018, 0xF0FF, fun w => .ldStVx (xOf w)⟩,
   ⟨"ADD_I_Vx", 0xF01E, 0xF0FF, fun w => .addIVx (xOf w)⟩,
   ⟨"LD_F_Vx", 0xF029, 0xF0FF, fun w => .ldFVx (xOf w)⟩,
   ⟨"LD_B_Vx", 0xF033, 0xF0FF, fun w => .ldBVx (xOf w)⟩,
   ⟨"LD__I__Vx", 0xF055, 0xF0FF, fun w => .ldMemVx (xOf w)⟩,
   ⟨"LD_Vx__I", 0xF065, 0xF0FF, fun w => .ldVxMem (xOf w)⟩]

/-- The complete instruction table, 34 rows (spec/30_encoding.md R96). -/
def opcodeTable : List OpcodeRow := opcodeRowsA ++ opcodeRowsB ++ opcodeRowsC ++ opcodeRowsD

/-! ### The decoder -/

/-- Why bytes are no instruction. -/
inductive DecodeError where
  /-- Fewer than the two bytes of an instruction (spec/30_encoding.md R90). -/
  | truncated
  /-- The word matches no row (spec/30_encoding.md R97). -/
  | unknownOpcode (w : Word)
  deriving DecidableEq, Repr

/-- The instruction a word selects, or the verdict unknown: total on all 65 536 words (spec/30_encoding.md R95, R99). -/
def decodeWord (w : Word) : Except DecodeError Instr :=
  match opcodeTable.find? (fun r => r.selects w) with
  | some r => .ok (r.build w)
  | none => .error (.unknownOpcode w)

/-- Two bytes as an opcode, big-endian: the byte at the lower address is bits 15:8 (spec/20_memory.md R66). -/
def wordOfBytes (hi lo : Byte) : Word := hi.setWidth 16 <<< 8 ||| lo.setWidth 16

/-- The byte of an opcode at the lower address, bits 15:8 (spec/30_encoding.md R91). -/
def hiByte (w : Word) : Byte := w.extractLsb' 8 8

/-- The byte of an opcode at the higher address, bits 7:0 (spec/30_encoding.md R91). -/
def loByte (w : Word) : Byte := w.extractLsb' 0 8

/-- The decoder on any bytes: the instruction at their head and the bytes after it (spec/30_encoding.md R90). -/
def decode : List Byte → Except DecodeError (Instr × List Byte)
  | hi :: lo :: rest =>
    match decodeWord (wordOfBytes hi lo) with
    | .ok i => .ok (i, rest)
    | .error e => .error e
  | [] => .error .truncated
  | [_] => .error .truncated

/-! ### The encoder (spec/30_encoding.md R91, R94) -/

/-- Format NNN. -/
def encodeNNN (op : BitVec 4) (addr : BitVec 12) : Word := op.setWidth 16 <<< 12 ||| addr.setWidth 16

/-- Format XKK. -/
def encodeXKK (op : BitVec 4) (x : Reg) (kk : Byte) : Word :=
  op.setWidth 16 <<< 12 ||| (regBits x).setWidth 16 <<< 8 ||| kk.setWidth 16

/-- Formats XY and XYN: the low nibble is a fixed sub-opcode or the row count. -/
def encodeXYN (op : BitVec 4) (x y : Reg) (n : BitVec 4) : Word :=
  op.setWidth 16 <<< 12 ||| (regBits x).setWidth 16 <<< 8 ||| (regBits y).setWidth 16 <<< 4 ||| n.setWidth 16

/-- The word of an instruction (spec/30_encoding.md R96). Format X is XKK with a fixed low byte. -/
def encode : Instr → Word
  | .cls => 0x00E0
  | .ret => 0x00EE
  | .jpAddr addr => encodeNNN 0x1 addr
  | .callAddr addr => encodeNNN 0x2 addr
  | .seVxKk x kk => encodeXKK 0x3 x kk
  | .sneVxKk x kk => encodeXKK 0x4 x kk
  | .seVxVy x y => encodeXYN 0x5 x y 0x0
  | .ldVxKk x kk => encodeXKK 0x6 x kk
  | .addVxKk x kk => encodeXKK 0x7 x kk
  | .ldVxVy x y => encodeXYN 0x8 x y 0x0
  | .orVxVy x y => encodeXYN 0x8 x y 0x1
  | .andVxVy x y => encodeXYN 0x8 x y 0x2
  | .xorVxVy x y => encodeXYN 0x8 x y 0x3
  | .addVxVy x y => encodeXYN 0x8 x y 0x4
  | .subVxVy x y => encodeXYN 0x8 x y 0x5
  | .shrVx x y => encodeXYN 0x8 x y 0x6
  | .subnVxVy x y => encodeXYN 0x8 x y 0x7
  | .shlVx x y => encodeXYN 0x8 x y 0xE
  | .sneVxVy x y => encodeXYN 0x9 x y 0x0
  | .ldIAddr addr => encodeNNN 0xA addr
  | .jpV0Addr addr => encodeNNN 0xB addr
  | .rndVxKk x kk => encodeXKK 0xC x kk
  | .drwVxVyN x y n => encodeXYN 0xD x y n
  | .skpVx x => encodeXKK 0xE x 0x9E
  | .sknpVx x => encodeXKK 0xE x 0xA1
  | .ldVxDt x => encodeXKK 0xF x 0x07
  | .ldVxK x => encodeXKK 0xF x 0x0A
  | .ldDtVx x => encodeXKK 0xF x 0x15
  | .ldStVx x => encodeXKK 0xF x 0x18
  | .addIVx x => encodeXKK 0xF x 0x1E
  | .ldFVx x => encodeXKK 0xF x 0x29
  | .ldBVx x => encodeXKK 0xF x 0x33
  | .ldMemVx x => encodeXKK 0xF x 0x55
  | .ldVxMem x => encodeXKK 0xF x 0x65

/-- The bytes of an instruction in memory order (spec/20_memory.md R66). -/
def encodeBytes (i : Instr) : List Byte := [hiByte (encode i), loByte (encode i)]

/-- The instruction the decoder reads from the table's bits: the 16-bit word as spec/opcode_table.json numbers it, laid
out as two bytes, the high one at the lower address. Bits from `nbits` on are 0. -/
def decodeTableWord (nbits w : Nat) : Option Instr :=
  let word : Word := BitVec.ofNat 16 (w % 2 ^ nbits)
  match decode [hiByte word, loByte word] with
  | .ok (i, _) => some i
  | .error _ => none

end Sys2Proof
end

