-- ==== Sys2Proof/Config.lean ====
section
/-! DEFINITION. What is fixed for one machine and is no state of it: the open parameters (spec/00_scope.md R7) and
the free inputs of a step (spec/10_state.md R38). -/

namespace Sys2Proof

/-- `WRAP_CMP`: whether a coordinate equal to the display dimension is reduced (spec/43_display.md R193). -/
inductive WrapCmp where
  | gt
  | ge
  deriving DecidableEq, Repr

/-- The four open parameters of spec/00_scope.md R7. -/
structure Config where
  /-- `FONT`, the contents of memory 0x000 to 0x04F after reset (spec/10_state.md R41). -/
  font : Vector Byte 80
  /-- `WRAP_CMP` (spec/43_display.md R193). -/
  wrapCmp : WrapCmp
  /-- `KEYBOARD_WIRED` (spec/44_timers_keyboard.md R214 to R216). -/
  keyboardWired : Bool
  /-- `TIMER_TICK_WIRED` (spec/60_exceptions.md R281). -/
  timerTickWired : Bool
  deriving DecidableEq, Repr

/-- The default glyphs of the digits 0 to 7, five bytes each (spec/10_state.md R41). -/
def Config.defaultGlyphsLow : List Byte :=
  [0xF0, 0x90, 0x90, 0x90, 0xF0,
   0x20, 0x60, 0x20, 0x20, 0x70,
   0xF0, 0x10, 0xF0, 0x80, 0xF0,
   0xF0, 0x10, 0xF0, 0x10, 0xF0,
   0x90, 0x90, 0xF0, 0x10, 0x10,
   0xF0, 0x80, 0xF0, 0x10, 0xF0,
   0xF0, 0x80, 0xF0, 0x90, 0xF0,
   0xF0, 0x10, 0x20, 0x40, 0x40]

/-- The default glyphs of the digits 8 to F, five bytes each (spec/10_state.md R41). -/
def Config.defaultGlyphsHigh : List Byte :=
  [0xF0, 0x90, 0xF0, 0x90, 0xF0,
   0xF0, 0x90, 0xF0, 0x10, 0xF0,
   0xF0, 0x90, 0xF0, 0x90, 0x90,
   0xE0, 0x90, 0xE0, 0x90, 0xE0,
   0xF0, 0x80, 0x80, 0x80, 0xF0,
   0xE0, 0x90, 0x90, 0x90, 0xE0,
   0xF0, 0x80, 0xF0, 0x80, 0xF0,
   0xF0, 0x80, 0xF0, 0x80, 0x80]

/-- The default `FONT` (spec/10_state.md R41, from general knowledge there; log 2). -/
def Config.defaultFont : Vector Byte 80 :=
  ⟨(Config.defaultGlyphsLow ++ Config.defaultGlyphsHigh).toArray, by decide⟩

/-- The defaults of spec/00_scope.md R7: nothing is wired, `WRAP_CMP = gt`. -/
def Config.default : Config :=
  { font := Config.defaultFont, wrapCmp := .gt, keyboardWired := false, timerTickWired := false }

/-- FREE VALUE: the byte the `k`-th `RND` of a run draws from `rnd_in` (spec/41_register_alu.md R155,
spec/50_interfaces.md R244): any value, under no law. Log 3. -/
opaque Config.draw8 : Nat → Byte

/-- FREE VALUE: the keyboard's answer to the `k`-th `is_pressed` query of a run, for a key 0 to F
(spec/50_interfaces.md R242): any answer. Log 4. -/
opaque Config.isPressed : Nat → BitVec 4 → Bool

end Sys2Proof
end

