-- ==== Sys2Proof/Machine/State.lean ====
section
/-! DEFINITION. The state of the core as plain data (spec/10_state.md R20), its reset value (R40), and the reasons the
host's interface could stop on. -/

namespace Sys2Proof.Machine

/-- `ERR`, the record that holds a fault (spec/10_state.md R35). -/
structure ErrRecord where
  /-- `ERR_VALID`: the core has stopped. -/
  valid : Bool
  /-- `ERR_CODE` (spec/60_exceptions.md R261). -/
  code : BitVec 4
  /-- `ERR_OPCODE`. -/
  opcode : Word
  /-- `ERR_ADDR`. -/
  addr : Word
  /-- `ERR_INFO`. -/
  info : BitVec 17
  deriving DecidableEq, Repr

/-- `ERR` when the core has not faulted since the last reset (spec/10_state.md R40). -/
def ErrRecord.none : ErrRecord := { valid := false, code := 0, opcode := 0, addr := 0, info := 0 }

/-- The state of the core (spec/10_state.md R20). The last four fields are the model's own: the open parameters (R38,
log 2), the counters of the free inputs (log 3, log 4) and of the output event `clear` (log 5). -/
structure State where
  /-- `M`, as the cells that do not hold what an unlisted address reads as (spec/20_memory.md R60). -/
  mem : List Host.Cell
  /-- `V[0]` to `V[15]` (spec/10_state.md R21). -/
  v : Vector Byte 16
  /-- `I` (spec/10_state.md R28). -/
  i : Word
  /-- `PC` (spec/10_state.md R24). -/
  pc : Word
  /-- `SP`, 0 to 16 (spec/10_state.md R29; log 9). -/
  sp : Fin 17
  /-- `Stack[0]` to `Stack[15]` (spec/10_state.md R30). -/
  stack : Vector Word 16
  /-- `DT` (spec/10_state.md R31). -/
  dt : Byte
  /-- `ST` (spec/10_state.md R32). -/
  st : Byte
  /-- `D[0]` to `D[2047]`, row-major (spec/10_state.md R33). -/
  disp : Vector Bool 2048
  /-- `DF` (spec/10_state.md R34). -/
  df : Bool
  /-- `ERR` (spec/10_state.md R35). -/
  err : ErrRecord
  /-- `WAIT_KEY` (spec/10_state.md R36). -/
  waitKey : Bool
  /-- `WAIT_X` (spec/10_state.md R36). -/
  waitX : Reg
  /-- The open parameters (spec/00_scope.md R7); no event changes them. -/
  cfg : Config
  /-- How many `draw8()` values have been taken. -/
  draws : Nat
  /-- How many `is_pressed` answers have been taken. -/
  polls : Nat
  /-- How many `clear` events have been emitted. -/
  clears : Nat
  deriving DecidableEq, Repr

/-- The state right after reset with the parameters `c` (spec/10_state.md R40). Memory lists nothing: every address
reads as its reset content. -/
def State.resetWith (c : Config) : State :=
  { mem := [], v := Vector.replicate 16 0, i := 0, pc := 0x200, sp := 0, stack := Vector.replicate 16 0,
    dt := 0, st := 0, disp := Vector.replicate 2048 false, df := false, err := ErrRecord.none,
    waitKey := false, waitX := 0, cfg := c, draws := 0, polls := 0, clears := 0 }

/-- The machine right after reset, with the default parameters (spec/10_state.md R40, spec/00_scope.md R7). -/
def State.reset : State := State.resetWith Config.default

/-- The host's reasons for a fault: there are none. Every fault of the spec is taken as the next state that fault entry
describes, with `ERR` written (spec/60_exceptions.md R268, R270; log 1); nobody raises a host fault. -/
inductive Fault where
  deriving DecidableEq, Repr

/-- The host's reasons for a refusal. -/
inductive Refusal where
  /-- Raised by an arm of `exec` for an instruction that has no meaning yet; no arm raises it now. Safe: the run stops. -/
  | notModelled (mnemonic : String)
  deriving DecidableEq, Repr

end Sys2Proof.Machine
end

