-- ==== Sys2Proof/Machine/Operands.lean ====
section
/-! DEFINITION. The operand forms: register operands, zero-extended immediates, the effective address from `I`, the
decimal digits of a byte and the coordinates of a sprite pixel (spec/30_encoding.md R93, spec/42_index_memory.md R170,
R175, spec/43_display.md R193, R194). -/

namespace Sys2Proof.Machine

/-- Read of general register `V[r]` (spec/00_scope.md R10). -/
def State.reg (s : State) (r : Reg) : Byte := s.v[r]

/-- `zext_16` of a byte (spec/00_scope.md R10). -/
def zextByte (b : Byte) : Word := b.setWidth 16

/-- `zext_16` of a 12-bit address field (spec/30_encoding.md R93). -/
def zextAddr (addr : BitVec 12) : Word := addr.setWidth 16

/-- The effective address `I + offset`, the exact sum as a natural number (spec/20_memory.md R65). -/
def State.ea (s : State) (offset : Nat) : Nat := s.i.toNat + offset

/-- `h = v div 100` (spec/42_index_memory.md R175). -/
def bcdHundreds (b : Byte) : Byte := BitVec.ofNat 8 (b.toNat / 100)

/-- `t = (v div 10) mod 10` (spec/42_index_memory.md R175). -/
def bcdTens (b : Byte) : Byte := BitVec.ofNat 8 (b.toNat / 10 % 10)

/-- `u = v mod 10` (spec/42_index_memory.md R175). -/
def bcdOnes (b : Byte) : Byte := BitVec.ofNat 8 (b.toNat % 10)

/-- Whether a coordinate exceeds the dimension, as `WRAP_CMP` says (spec/43_display.md R193). -/
def exceeds (cmp : WrapCmp) (c dim : Nat) : Bool :=
  match cmp with
  | .gt => decide (c > dim)
  | .ge => decide (c ≥ dim)

/-- `wrap(c, dim)`: a single subtraction, never a modulo (spec/43_display.md R193). -/
def wrap (cmp : WrapCmp) (c dim : Nat) : Nat := if exceeds cmp c dim then c - dim else c

/-- `k = px + 64 * py` for the pixel (`cx`, `cy`) of a sprite whose origin is (`ox`, `oy`) (spec/43_display.md R194). -/
def cellOf (cmp : WrapCmp) (ox oy cx cy : Nat) : Nat := wrap cmp (ox + cx) 64 + 64 * wrap cmp (oy + cy) 32

/-- Whether the sprite row byte has a pixel in column `cx`: column `cx` is bit `7 - cx` (spec/43_display.md R192). -/
def spriteBit (spr : Byte) (cx : Nat) : Bool := spr.getMsbD cx

end Sys2Proof.Machine
end

