-- ==== Sys2Proof/Machine/Ops.lean ====
section
/-! DEFINITION. The named operations over memory and registers, taking a fault, and the fetch
(spec/20_memory.md, spec/60_exceptions.md R268, spec/50_interfaces.md R232). -/

namespace Sys2Proof.Machine

/-! ### Memory -/

/-- What an address that is not listed reads as: its content after reset, the font table below 0x050 and zero above
(spec/10_state.md R40, R41). -/
def Memory.background (font : Vector Byte 80) (a : Nat) : Byte := if h : a < 80 then font[a] else 0

/-- The byte at `a`, `M[a]` (spec/20_memory.md R63). -/
def Memory.read (font : Vector Byte 80) : List Host.Cell → Nat → Byte
  | [], a => Memory.background font a
  | (k, b) :: rest, a => if k = a then b else Memory.read font rest a

/-- The cells without the one at `a`. -/
def Memory.drop (mem : List Host.Cell) (a : Nat) : List Host.Cell := mem.filter (fun c => c.1 != a)

/-- The cell `(a, b)` put in its place among cells of rising addresses. -/
def Memory.place (a : Nat) (b : Byte) : List Host.Cell → List Host.Cell
  | [] => [(a, b)]
  | (k, c) :: rest => if a < k then (a, b) :: (k, c) :: rest else (k, c) :: Memory.place a b rest

/-- `M[a] <- b` (spec/20_memory.md R64): writing what an unlisted address reads as removes the cell. -/
def Memory.write (font : Vector Byte 80) (mem : List Host.Cell) (a : Nat) (b : Byte) : List Host.Cell :=
  if b = Memory.background font a then Memory.drop mem a else Memory.place a b (Memory.drop mem a)

/-- Bytes stored at `base` and up, ascending (spec/20_memory.md R65). -/
def Memory.store (font : Vector Byte 80) : List Host.Cell → Nat → List Byte → List Host.Cell
  | mem, _, [] => mem
  | mem, base, b :: rest => Memory.store font (Memory.write font mem base b) (base + 1) rest

/-- The canonical form from the address `lo` up: addresses strictly rising, in the array, none at its unlisted value. -/
def Memory.wfFrom (font : Vector Byte 80) : Nat → List Host.Cell → Bool
  | _, [] => true
  | lo, (k, b) :: rest =>
    decide (lo ≤ k) && decide (k < 4096) && b != Memory.background font k && Memory.wfFrom font (k + 1) rest

/-- The canonical form of memory. -/
def Memory.wf (font : Vector Byte 80) (mem : List Host.Cell) : Bool := Memory.wfFrom font 0 mem

/-- The byte of `M` at an address of the array (spec/20_memory.md R63). -/
def State.byte (s : State) (a : Nat) : Byte := Memory.read s.cfg.font s.mem a

/-- Stores bytes at `base` and up; the callers check the range first (spec/20_memory.md R71). -/
def State.storeBytes (s : State) (base : Nat) (bytes : List Byte) : State :=
  { s with mem := Memory.store s.cfg.font s.mem base bytes }

/-! ### Registers -/

/-- `V[r] <- b`. -/
def State.setReg (s : State) (r : Reg) (b : Byte) : State := { s with v := s.v.set r b }

/-- `PC <- w`. -/
def State.setPc (s : State) (w : Word) : State := { s with pc := w }

/-- `I <- w`. -/
def State.setIndex (s : State) (w : Word) : State := { s with i := w }

/-- `DT <- b`. -/
def State.setDt (s : State) (b : Byte) : State := { s with dt := b }

/-- `ST <- b`. -/
def State.setSt (s : State) (b : Byte) : State := { s with st := b }

/-- The increment of the fetch, and a taken skip: `PC <- PC + 2` (spec/40_control_transfer.md R128). -/
def State.advance (s : State) : State := s.setPc (s.pc + 2)

/-- A skip: `PC <- PC + 2` if the condition holds (spec/40_control_transfer.md R128). -/
def State.skipIf (s : State) (c : Bool) : State := if c then s.advance else s

/-- `Stack[SP] <- w; SP <- SP + 1`, for `SP < 16` (spec/40_control_transfer.md R123). -/
def State.push (s : State) (h : s.sp.val < 16) (w : Word) : State :=
  { s with stack := s.stack.set s.sp.val w, sp := ⟨s.sp.val + 1, by omega⟩ }

/-- `SP <- SP - 1; PC <- Stack[SP]`, for `SP > 0` (spec/40_control_transfer.md R121): the slot keeps its value. -/
def State.pop (s : State) (h : 0 < s.sp.val) : State :=
  { s with sp := ⟨s.sp.val - 1, by omega⟩, pc := s.stack[s.sp.val - 1]'(by omega) }

/-- Loads `count` registers from `base` up, `V[j] <- M[base + j]`, ascending (spec/42_index_memory.md R178). -/
def State.loadRegs (s : State) (base count : Nat) : State :=
  { s with v := (List.range count).foldl (fun v j => v.setIfInBounds j (s.byte (base + j))) s.v }

/-- The display zeroed and one `clear` event emitted (spec/43_display.md R191, spec/50_interfaces.md R240). -/
def State.clearDisplay (s : State) : State :=
  { s with disp := Vector.replicate 2048 false, clears := s.clears + 1 }

/-- `WAIT_X <- x; WAIT_KEY <- 1` (spec/44_timers_keyboard.md R216). -/
def State.beginWait (s : State) (x : Reg) : State := { s with waitKey := true, waitX := x }

/-- One value of `rnd_in` has been taken (log 3). -/
def State.tookDraw (s : State) : State := { s with draws := s.draws + 1 }

/-- One answer of `is_pressed` has been taken (log 4). -/
def State.tookPoll (s : State) : State := { s with polls := s.polls + 1 }

/-! ### Taking a fault (spec/60_exceptions.md R261, R268) -/

/-- The causes of spec/60_exceptions.md R261. -/
inductive Cause where
  | unknownOpcode
  | fetchOutOfRange
  | memOutOfRange
  | stackOverflow
  | stackUnderflow
  | indexOverflow
  | displayOutOfRange
  | keyOutOfRange
  deriving DecidableEq, Repr

/-- The code of a cause (spec/60_exceptions.md R261). -/
def Cause.code : Cause → BitVec 4
  | .unknownOpcode => 1
  | .fetchOutOfRange => 2
  | .memOutOfRange => 3
  | .stackOverflow => 4
  | .stackUnderflow => 5
  | .indexOverflow => 6
  | .displayOutOfRange => 7
  | .keyOutOfRange => 8

/-- A raised fault: its cause and the value `ERR_INFO` records (spec/60_exceptions.md R261). -/
structure Raised where
  cause : Cause
  info : Nat
  deriving DecidableEq, Repr

/-- Fault entry (spec/60_exceptions.md R268): `ERR` is written and everything else stays, `PC` among it, which the
fetch's increment has already moved or not. -/
def State.raise (s : State) (r : Raised) (opcode addr : Word) : State :=
  { s with err := { valid := true, code := r.cause.code, opcode := opcode, addr := addr, info := BitVec.ofNat 17 r.info } }

/-- Fault entry from the handler of `i`, on the state the handler began with: there `PC = a + 2`, so the address of the
instruction is `PC - 2` (spec/60_exceptions.md R268; log 8). -/
def State.raiseIn (s : State) (i : Instr) (r : Raised) : State := s.raise r (encode i) (s.pc - 2)

/-- The outcome of a handler that faults: the next state is the one fault entry leaves (spec/60_exceptions.md R268). -/
def faulted (i : Instr) (r : Raised) (s : State) : Host.Outcome State Fault Refusal := .next (s.raiseIn i r)

/-- The range check of an access to `I` to `I + last`: `MemOutOfRange` with the lowest offending address
(spec/20_memory.md R71, spec/42_index_memory.md R176 to R178). -/
def State.rangeFault (s : State) (last : Nat) : Option Raised :=
  if s.ea last > 0xFFF then some { cause := .memOutOfRange, info := max s.i.toNat 0x1000 } else none

/-- `MemRead(addr, 1)` (spec/20_memory.md R63). -/
def State.memRead (s : State) (a : Nat) : Except Raised Byte :=
  if a > 0xFFF then .error { cause := .memOutOfRange, info := a } else .ok (s.byte a)

/-! ### The step's frame (spec/50_interfaces.md R231, R232) -/

/-- The three conditions of spec/50_interfaces.md R231. -/
inductive Status where
  | running
  | blocked
  | stopped
  deriving DecidableEq, Repr

/-- The status of the core (spec/50_interfaces.md R231). -/
def State.status (s : State) : Status :=
  if s.err.valid then .stopped
  else if s.cfg.keyboardWired && s.waitKey then .blocked
  else .running

/-- The opcode at `PC`, big-endian (spec/20_memory.md R66). -/
def State.opcodeAt (s : State) : Word := wordOfBytes (s.byte s.pc.toNat) (s.byte (s.pc.toNat + 1))

/-- The part of a step before the handler (spec/50_interfaces.md R232): the instruction and the state with `PC = a + 2`,
or the state that a fault of the fetch or of the decoder leaves. -/
def State.fetch (s : State) : Except State (Instr × State) :=
  if s.pc.toNat > 0xFFE then .error (s.raise { cause := .fetchOutOfRange, info := 0 } 0 s.pc)
  else
    match decodeWord s.opcodeAt with
    | .ok i => .ok (i, s.advance)
    | .error _ => .error (s.advance.raise { cause := .unknownOpcode, info := 0 } s.opcodeAt s.pc)

end Sys2Proof.Machine
end

