-- ==== Sys2Proof/Machine/Alu.lean ====
section
/-! DEFINITION. Register loads, arithmetic, logic, shifts and random (spec/41_register_alu.md). The statements of an
instruction run in the written order, each on the state the ones before it left (R141). -/

namespace Sys2Proof.Machine

/-- `LD Vx,kk` (6xkk), spec/41_register_alu.md R142. -/
def execLdVxKk (x : Reg) (kk : Byte) (s : State) : Host.Outcome State Fault Refusal := .next (s.setReg x kk)

/-- `ADD Vx,kk` (7xkk), spec/41_register_alu.md R143: no flag. -/
def execAddVxKk (x : Reg) (kk : Byte) (s : State) : Host.Outcome State Fault Refusal := .next (s.setReg x (s.reg x + kk))

/-- `LD Vx,Vy` (8xy0), spec/41_register_alu.md R144. -/
def execLdVxVy (x y : Reg) (s : State) : Host.Outcome State Fault Refusal := .next (s.setReg x (s.reg y))

/-- `OR Vx,Vy` (8xy1), spec/41_register_alu.md R145: no flag. -/
def execOrVxVy (x y : Reg) (s : State) : Host.Outcome State Fault Refusal := .next (s.setReg x (s.reg x ||| s.reg y))

/-- `AND Vx,Vy` (8xy2), spec/41_register_alu.md R146: no flag. -/
def execAndVxVy (x y : Reg) (s : State) : Host.Outcome State Fault Refusal := .next (s.setReg x (s.reg x &&& s.reg y))

/-- `XOR Vx,Vy` (8xy3), spec/41_register_alu.md R147: no flag. -/
def execXorVxVy (x y : Reg) (s : State) : Host.Outcome State Fault Refusal := .next (s.setReg x (s.reg x ^^^ s.reg y))

/-- `ADD Vx,Vy` (8xy4), spec/41_register_alu.md R148: the sum is taken before either write, the result is written
last. -/
def execAddVxVy (x y : Reg) (s : State) : Host.Outcome State Fault Refusal :=
  let sum := (s.reg x).toNat + (s.reg y).toNat
  .next ((s.setReg vf (carryFlag sum)).setReg x (BitVec.ofNat 8 sum))

/-- `SUB Vx,Vy` (8xy5), spec/41_register_alu.md R149: the difference reads both registers after the flag write. -/
def execSubVxVy (x y : Reg) (s : State) : Host.Outcome State Fault Refusal :=
  let t := s.setReg vf (greaterFlag (s.reg x) (s.reg y))
  .next (t.setReg x (t.reg x - t.reg y))

/-- `SHR Vx` (8xy6), spec/41_register_alu.md R150: `y` is encoded and ignored. -/
def execShrVx (x _y : Reg) (s : State) : Host.Outcome State Fault Refusal :=
  let t := s.setReg vf (lowBitFlag (s.reg x))
  .next (t.setReg x (t.reg x >>> 1))

/-- `SUBN Vx,Vy` (8xy7), spec/41_register_alu.md R151. -/
def execSubnVxVy (x y : Reg) (s : State) : Host.Outcome State Fault Refusal :=
  let t := s.setReg vf (greaterFlag (s.reg y) (s.reg x))
  .next (t.setReg x (t.reg y - t.reg x))

/-- `SHL Vx` (8xyE), spec/41_register_alu.md R152: `y` is encoded and ignored. -/
def execShlVx (x _y : Reg) (s : State) : Host.Outcome State Fault Refusal :=
  let t := s.setReg vf (highBitFlag (s.reg x))
  .next (t.setReg x (t.reg x <<< 1))

/-- `RND Vx,kk` (Cxkk), spec/41_register_alu.md R155: the byte is a free value (log 3). -/
def execRndVxKk (x : Reg) (kk : Byte) (s : State) : Host.Outcome State Fault Refusal :=
  .next ((s.setReg x (Config.draw8 s.draws &&& kk)).tookDraw)

end Sys2Proof.Machine
end

