-- ==== Sys2Proof/Machine/Control.lean ====
section
/-! DEFINITION. Return, jump, call, skips and the indexed jump (spec/40_control_transfer.md). A handler runs with
`PC = a + 2` (R120). -/

namespace Sys2Proof.Machine

/-- `RET` (00EE), spec/40_control_transfer.md R121. -/
def execRet (s : State) : Host.Outcome State Fault Refusal :=
  if h : 0 < s.sp.val then .next (s.pop h)
  else faulted .ret { cause := .stackUnderflow, info := 0 } s

/-- `JP addr` (1nnn), spec/40_control_transfer.md R122. -/
def execJpAddr (addr : BitVec 12) (s : State) : Host.Outcome State Fault Refusal := .next (s.setPc (zextAddr addr))

/-- `CALL addr` (2nnn), spec/40_control_transfer.md R123. -/
def execCallAddr (addr : BitVec 12) (s : State) : Host.Outcome State Fault Refusal :=
  if h : s.sp.val < 16 then .next ((s.push h s.pc).setPc (zextAddr addr))
  else faulted (.callAddr addr) { cause := .stackOverflow, info := 0 } s

/-- `SE Vx,kk` (3xkk), spec/40_control_transfer.md R124. -/
def execSeVxKk (x : Reg) (kk : Byte) (s : State) : Host.Outcome State Fault Refusal := .next (s.skipIf (s.reg x == kk))

/-- `SNE Vx,kk` (4xkk), spec/40_control_transfer.md R125. -/
def execSneVxKk (x : Reg) (kk : Byte) (s : State) : Host.Outcome State Fault Refusal := .next (s.skipIf (s.reg x != kk))

/-- `SE Vx,Vy` (5xy0), spec/40_control_transfer.md R126. -/
def execSeVxVy (x y : Reg) (s : State) : Host.Outcome State Fault Refusal := .next (s.skipIf (s.reg x == s.reg y))

/-- `SNE Vx,Vy` (9xy0), spec/40_control_transfer.md R127. -/
def execSneVxVy (x y : Reg) (s : State) : Host.Outcome State Fault Refusal := .next (s.skipIf (s.reg x != s.reg y))

/-- `JP V0,addr` (Bnnn), spec/40_control_transfer.md R129: the sum is not reduced. -/
def execJpV0Addr (addr : BitVec 12) (s : State) : Host.Outcome State Fault Refusal :=
  .next (s.setPc (zextAddr addr + zextByte (s.reg 0)))

end Sys2Proof.Machine
end

