-- ==== Sys2Proof/Machine/Display.lean ====
section
/-! DEFINITION. Clear and sprite draw (spec/43_display.md). -/

namespace Sys2Proof.Machine

/-- `CLS` (00E0), spec/43_display.md R191: the buffer is zeroed, one `clear` is emitted, `DF` stays. -/
def execCls (s : State) : Host.Outcome State Fault Refusal := .next s.clearDisplay

/-- What a `DRW` writes: the copy it works on and commits only if no fault was met (spec/43_display.md R198). -/
structure Canvas where
  v : Vector Byte 16
  disp : Vector Bool 2048
  deriving DecidableEq, Repr

/-- One set pixel of the sprite: column `cx`, row `cy`. The origin `V[x]`, `V[y]` is read here, at the pixel
(spec/43_display.md R192, R194 to R196). -/
def drawPixel (cmp : WrapCmp) (x y : Reg) (cy cx : Nat) (c : Canvas) : Except Raised Canvas :=
  let k := cellOf cmp c.v[x].toNat c.v[y].toNat cx cy
  if h : k < 2048 then
    .ok { v := if c.disp[k] then c.v.set vf (flagByte true) else c.v, disp := c.disp.set k (!c.disp[k]) }
  else .error { cause := .displayOutOfRange, info := k }

/-- One row of the sprite, columns left to right; a zero bit touches nothing and is not checked
(spec/43_display.md R192). -/
def drawRow (cmp : WrapCmp) (x y : Reg) (cy : Nat) (spr : Byte) (c : Canvas) : Except Raised Canvas :=
  (List.range 8).foldlM (fun c cx => if spriteBit spr cx then drawPixel cmp x y cy cx c else .ok c) c

/-- The rows of the sprite, top to bottom, each byte read from `I + cy` (spec/43_display.md R192). -/
def drawRows (s : State) (x y : Reg) (n : Nat) (c : Canvas) : Except Raised Canvas :=
  (List.range n).foldlM
    (fun c cy =>
      match s.memRead (s.ea cy) with
      | .ok spr => drawRow s.cfg.wrapCmp x y cy spr c
      | .error r => .error r)
    c

/-- `DRW Vx,Vy,n` (Dxyn), spec/43_display.md R192: `V[0xF]` is cleared first, `DF` is set last, a fault keeps
nothing. -/
def execDrwVxVyN (x y : Reg) (n : BitVec 4) (s : State) : Host.Outcome State Fault Refusal :=
  match drawRows s x y n.toNat { v := s.v.set vf 0, disp := s.disp } with
  | .ok c => .next { s with v := c.v, disp := c.disp, df := true }
  | .error r => faulted (.drwVxVyN x y n) r s

end Sys2Proof.Machine
end

