-- ==== Sys2Proof/Machine/IndexMemory.lean ====
section
/-! DEFINITION. The index register and the memory instructions (spec/42_index_memory.md). -/

namespace Sys2Proof.Machine

/-- `LD I,addr` (Annn), spec/42_index_memory.md R171. -/
def execLdIAddr (addr : BitVec 12) (s : State) : Host.Outcome State Fault Refusal := .next (s.setIndex (zextAddr addr))

/-- `ADD I,Vx` (Fx1E), spec/42_index_memory.md R173: the sum is exact, above 0xFFFF it faults. -/
def execAddIVx (x : Reg) (s : State) : Host.Outcome State Fault Refusal :=
  let sum := s.i.toNat + (s.reg x).toNat
  if sum > 0xFFFF then faulted (.addIVx x) { cause := .indexOverflow, info := sum } s
  else .next (s.setIndex (BitVec.ofNat 16 sum))

/-- `LD F,Vx` (Fx29), spec/42_index_memory.md R174: the whole byte times 5. -/
def execLdFVx (x : Reg) (s : State) : Host.Outcome State Fault Refusal := .next (s.setIndex (zextByte (s.reg x) * 5))

/-- `LD B,Vx` (Fx33), spec/42_index_memory.md R176. -/
def execLdBVx (x : Reg) (s : State) : Host.Outcome State Fault Refusal :=
  match s.rangeFault 2 with
  | some r => faulted (.ldBVx x) r s
  | none =>
    .next (s.storeBytes (s.ea 0) [bcdHundreds (s.reg x), bcdTens (s.reg x), bcdOnes (s.reg x)])

/-- `LD [I],Vx` (Fx55), spec/42_index_memory.md R177: `V[0]` to `V[x]`, `I` unchanged. -/
def execLdMemVx (x : Reg) (s : State) : Host.Outcome State Fault Refusal :=
  match s.rangeFault x.val with
  | some r => faulted (.ldMemVx x) r s
  | none => .next (s.storeBytes (s.ea 0) (s.v.toList.take (x.val + 1)))

/-- `LD Vx,[I]` (Fx65), spec/42_index_memory.md R178: `V[0]` to `V[x]`, `I` unchanged. -/
def execLdVxMem (x : Reg) (s : State) : Host.Outcome State Fault Refusal :=
  match s.rangeFault x.val with
  | some r => faulted (.ldVxMem x) r s
  | none => .next (s.loadRegs (s.ea 0) (x.val + 1))

end Sys2Proof.Machine
end

