-- ==== Sys2Proof/Machine/TimersKeys.lean ====
section
/-! DEFINITION. The timer and keyboard instructions (spec/44_timers_keyboard.md). -/

namespace Sys2Proof.Machine

/-- `LD Vx,DT` (Fx07), spec/44_timers_keyboard.md R211. -/
def execLdVxDt (x : Reg) (s : State) : Host.Outcome State Fault Refusal := .next (s.setReg x s.dt)

/-- `LD DT,Vx` (Fx15), spec/44_timers_keyboard.md R212. -/
def execLdDtVx (x : Reg) (s : State) : Host.Outcome State Fault Refusal := .next (s.setDt (s.reg x))

/-- `LD ST,Vx` (Fx18), spec/44_timers_keyboard.md R213. -/
def execLdStVx (x : Reg) (s : State) : Host.Outcome State Fault Refusal := .next (s.setSt (s.reg x))

/-- The keyboard skips with a keyboard wired: the key `V[x]` must be 0 to F, and the skip is taken when the keyboard's
answer is `want`, a free value (spec/44_timers_keyboard.md R214, R215; log 4). -/
def keySkip (i : Instr) (x : Reg) (want : Bool) (s : State) : Host.Outcome State Fault Refusal :=
  if keyWellFormed (s.reg x) then
    .next (s.tookPoll.skipIf (Config.isPressed s.polls ((s.reg x).setWidth 4) == want))
  else faulted i { cause := .keyOutOfRange, info := (s.reg x).toNat } s

/-- `SKP Vx` (Ex9E), spec/44_timers_keyboard.md R214: a no-op with no keyboard. -/
def execSkpVx (x : Reg) (s : State) : Host.Outcome State Fault Refusal :=
  if s.cfg.keyboardWired then keySkip (.skpVx x) x true s else .next s

/-- `SKNP Vx` (ExA1), spec/44_timers_keyboard.md R215: a no-op with no keyboard, it does not skip. -/
def execSknpVx (x : Reg) (s : State) : Host.Outcome State Fault Refusal :=
  if s.cfg.keyboardWired then keySkip (.sknpVx x) x false s else .next s

/-- `LD Vx,K` (Fx0A), spec/44_timers_keyboard.md R216: a no-op with no keyboard, else the core is blocked. -/
def execLdVxK (x : Reg) (s : State) : Host.Outcome State Fault Refusal :=
  if s.cfg.keyboardWired then .next (s.beginWait x) else .next s

end Sys2Proof.Machine
end

