-- ==== Sys2Proof/Machine/Step.lean ====
section
/-! DEFINITION. The step of the core (spec/50_interfaces.md R231, R232), and where a test places an instruction. -/

namespace Sys2Proof.Machine

/-- The event `step` (spec/50_interfaces.md R231): a stopped or blocked core does nothing, a running one fetches,
decodes and runs one instruction. -/
def step (s : State) : Host.Outcome State Fault Refusal :=
  match s.status with
  | .stopped => .next s
  | .blocked => .next s
  | .running =>
    match s.fetch with
    | .ok (i, t) => exec i t
    | .error t => .next t

/-- `s` with the instruction of the table's bits `w` where the next step fetches, on a core that runs: `ERR` and the
key wait are cleared, and a `PC` with no fetchable word is moved to the entry address 0x200 (log 10). -/
def State.withFetchWord (s : State) (nbits w : Nat) : State :=
  let word : Word := BitVec.ofNat 16 (w % 2 ^ nbits)
  let t : State :=
    { s with
      pc := if s.pc.toNat > 0xFFE then 0x200 else s.pc
      err := if s.err.valid then ErrRecord.none else s.err
      waitKey := s.waitKey && !s.cfg.keyboardWired }
  t.storeBytes t.pc.toNat [hiByte word, loByte word]

end Sys2Proof.Machine
end

