-- ==== Sys2Proof/Machine/Events.lean ====
section
/-! DEFINITION. The host's events and ports (spec/50_interfaces.md R230 to R247, spec/44_timers_keyboard.md R220,
spec/60_exceptions.md R281). They happen between steps, one at a time, each to completion (R230). -/

namespace Sys2Proof.Machine

/-- The events the core reacts to (spec/50_interfaces.md R230). A key number is 4 bits: the host never raises another
(R247). -/
inductive Event where
  | reset
  | load (bytes : List Byte)
  | step
  | consumeRedraw
  | key (k : BitVec 4)
  | timerTick
  deriving DecidableEq, Repr

/-- `reset` (spec/50_interfaces.md R235): every piece of the spec's state to its reset value, whatever it was. The
parameters and the counters of the free inputs and of `clear` are no state of the core and stay (log 14). -/
def onReset (s : State) : State :=
  { State.resetWith s.cfg with draws := s.draws, polls := s.polls, clears := s.clears }

/-- `load(bytes)` (spec/50_interfaces.md R236, R237): the image at 0x200, or nothing at all when it is too large. -/
def onLoad (bytes : List Byte) (s : State) : State :=
  if imageWellFormed bytes then s.storeBytes 0x200 bytes else s

/-- `consume_redraw` (spec/50_interfaces.md R241). -/
def onConsumeRedraw (s : State) : State := { s with df := false }

/-- `key(k)` (spec/44_timers_keyboard.md R220): lifts the hold of `Fx0A`, else nothing; with no keyboard there is no
such event. -/
def onKey (k : BitVec 4) (s : State) : State :=
  if s.cfg.keyboardWired && s.waitKey then { s.setReg s.waitX (k.setWidth 8) with waitKey := false } else s

/-- A timer one lower, 0 stays 0 (spec/60_exceptions.md R281). -/
def tickDown (b : Byte) : Byte := if b.toNat > 0 then b - 1 else b

/-- `timer_tick` (spec/60_exceptions.md R281); not wired, there is no such event. -/
def onTimerTick (s : State) : State :=
  if s.cfg.timerTickWired then (s.setDt (tickDown s.dt)).setSt (tickDown s.st) else s

/-- The core's reaction to an event (spec/50_interfaces.md R230). -/
def handle (e : Event) (s : State) : Host.Outcome State Fault Refusal :=
  match e with
  | .reset => .next (onReset s)
  | .load bytes => .next (onLoad bytes s)
  | .step => step s
  | .consumeRedraw => .next (onConsumeRedraw s)
  | .key k => .next (onKey k s)
  | .timerTick => .next (onTimerTick s)

/-- What an event gives back to the host that raised it (spec/50_interfaces.md R237, R247). -/
inductive Reply where
  | done
  | loadTooLarge (len : Nat)
  deriving DecidableEq, Repr

/-- The reply to an event: only a load that does not fit is rejected (spec/50_interfaces.md R237). -/
def replyTo (e : Event) : Reply :=
  match e with
  | .load bytes => if imageWellFormed bytes then .done else .loadTooLarge bytes.length
  | .reset => .done
  | .step => .done
  | .consumeRedraw => .done
  | .key _ => .done
  | .timerTick => .done

/-- A sequence of events, stopping at the first that is not answered with a next state (spec/50_interfaces.md R230). -/
def handleAll : List Event → State → Host.Outcome State Fault Refusal
  | [], s => .next s
  | e :: rest, s =>
    match handle e s with
    | .next t => handleAll rest t
    | .fault f => .fault f
    | .refused r => .refused r

/-- What the host can read between events (spec/50_interfaces.md R239, R241, R243, R245). -/
structure Ports where
  display : Vector Bool 2048
  redraw : Bool
  delayTimer : Byte
  soundTimer : Byte
  error : ErrRecord
  deriving DecidableEq, Repr

/-- The host's read ports (spec/50_interfaces.md R239, R241, R243, R245). -/
def State.ports (s : State) : Ports :=
  { display := s.disp, redraw := s.df, delayTimer := s.dt, soundTimer := s.st, error := s.err }

end Sys2Proof.Machine
end

