-- ==== Sys2Proof/Safety.lean ====
section
/-! DEFINITION. What counts as a safe run, and the terms the statements use: the invariant of the core and the pixels of
a sprite. -/

namespace Sys2Proof.Machine

/-- The core has not faulted (spec/10_state.md R35). -/
abbrev State.Safe (s : State) : Prop := s.err.valid = false

/-- A run of `k` steps that meets no fault (spec/50_interfaces.md R234). -/
def State.runsSafely (s : State) (k : Nat) : Prop := ∃ t, Sys2Proof.core.run k s = .next t ∧ State.Safe t

/-- What every event keeps. -/
structure State.Inv (s : State) : Prop where
  /-- Memory is in its canonical form. -/
  memory : Memory.wf s.cfg.font s.mem = true
  /-- `PC <= 0x10FE` always (spec/10_state.md R27). -/
  pcBound : s.pc.toNat ≤ 0x10FE
  /-- A slot holds a `PC` a `CALL` pushed, at most 0x1000, or a reset zero (spec/10_state.md R27). -/
  stackBound : ∀ j : Fin 16, s.stack[j].toNat ≤ 0x1000
  /-- With no keyboard the key wait is never entered (spec/10_state.md R36). -/
  waitWired : s.cfg.keyboardWired = false → s.waitKey = false ∧ s.waitX = 0
  /-- A core that has not faulted has an empty record (spec/10_state.md R40). -/
  errEmpty : s.err.valid = false → s.err = ErrRecord.none
  /-- A stopped core has a cause among the eight and waits for no key (spec/60_exceptions.md R261,
  spec/50_interfaces.md R231). -/
  errCause : s.err.valid = true → 1 ≤ s.err.code.toNat ∧ s.err.code.toNat ≤ 8 ∧ s.waitKey = false

/-- A core that runs an instruction at the next step (spec/50_interfaces.md R231). -/
abbrev State.Running (s : State) : Prop :=
  s.err.valid = false ∧ (s.cfg.keyboardWired = false ∨ s.waitKey = false)

/-- What fault entry leaves of the state a handler began with (spec/60_exceptions.md R268): `ERR` alone is written;
there `PC = a + 2`, so the instruction's address is `PC - 2`. -/
def State.faultedWith (s : State) (code : BitVec 4) (opcode info : Nat) : State :=
  { s with
    err :=
      { valid := true, code := code, opcode := BitVec.ofNat 16 opcode, addr := s.pc - 2, info := BitVec.ofNat 17 info } }

/-! ### The pixels of a sprite -/

/-- The sprite of `n` rows at `I` has a set bit in column `cx` of row `cy`: bit `7 - cx` of the byte at `I + cy`
(spec/43_display.md R192). -/
def State.spriteAt (s : State) (n cx cy : Nat) : Prop :=
  cx < 8 ∧ cy < n ∧ (s.byte (s.i.toNat + cy)).toNat.testBit (7 - cx) = true

/-- The set bits of the first `rows` rows in drawing order, as (column, row): rows ascending, columns left to right
(spec/43_display.md R192, R198). -/
def State.spritePixels (s : State) (rows : Nat) : List (Nat × Nat) :=
  (List.range rows).flatMap fun cy =>
    ((List.range 8).filter fun cx => (s.byte (s.i.toNat + cy)).toNat.testBit (7 - cx)).map fun cx => (cx, cy)

/-- The first `rows` rows of the sprite lie in memory (spec/20_memory.md R63). -/
abbrev State.rowsReadable (s : State) (rows : Nat) : Prop := rows = 0 ∨ s.i.toNat + rows ≤ 0x1000

/-- A coordinate of the sprite's origin while it is drawn: the register's value, but for `V[0xF]`, which is 0 until the
first collision and 1 after it (spec/43_display.md R196). -/
def State.originOf (s : State) (r : Reg) (collided : Bool) : Nat :=
  if r = vf then (if collided then 1 else 0) else (s.reg r).toNat

/-- The cell a pixel lands in before (`collided = false`) or after the first collision (spec/43_display.md R194). -/
def State.landsIn (s : State) (x y : Reg) (collided : Bool) (p : Nat × Nat) : Nat :=
  cellOf s.cfg.wrapCmp (s.originOf x collided) (s.originOf y collided) p.1 p.2

/-- Cell `k` exists and holds 1 (spec/10_state.md R33). -/
abbrev State.lit (s : State) (k : Nat) : Prop := s.disp[k]? = some true

/-- Drawing the pixels `ps` in order meets no fault and no collision. -/
def State.drawnClean (s : State) (x y : Reg) (ps : List (Nat × Nat)) : Prop :=
  ∀ p ∈ ps, s.landsIn x y false p ≤ 2047 ∧ ¬ s.lit (s.landsIn x y false p)

/-- Drawing the pixels `pre`, `p`, `post` in order meets no fault, and its first collision at `p`. -/
def State.drawnColliding (s : State) (x y : Reg) (pre : List (Nat × Nat)) (p : Nat × Nat)
    (post : List (Nat × Nat)) : Prop :=
  s.drawnClean x y pre ∧ s.landsIn x y false p ≤ 2047 ∧ s.lit (s.landsIn x y false p) ∧
    ∀ q ∈ post, s.landsIn x y true q ≤ 2047

/-- Drawing the pixels `ps` in order meets no fault, and a collision or none. -/
def State.drawn (s : State) (x y : Reg) (ps : List (Nat × Nat)) : Bool → Prop
  | false => s.drawnClean x y ps
  | true => ∃ pre p post, ps = pre ++ p :: post ∧ s.drawnColliding x y pre p post

/-- The whole sprite can be drawn from a fixed origin: its rows are readable and every set bit has a cell. -/
def State.spriteFits (s : State) (x y : Reg) (n : Nat) : Prop :=
  s.rowsReadable n ∧ ∀ cx cy, s.spriteAt n cx cy → s.landsIn x y false (cx, cy) ≤ 2047

end Sys2Proof.Machine
end

