-- ==== Sys2Proof/Certificates/Slice0/Obligations.lean ====
section
/-! DEFINITION. The statements for the provers, from the numbered rules of spec/. A fault of the spec is a next state
with `ERR` written (log 1), so a statement about a fault says which next state. -/

open Sys2Proof Sys2Proof.Machine

/-! ### Encoding -/

/-- The worked encodings of spec/30_encoding.md section 7, word by word. -/
def Obligations.WorkedEncodingsDecode : Prop :=
  decodeWord 0x6005 = .ok (.ldVxKk 0 5) ∧ decodeWord 0x7003 = .ok (.addVxKk 0 3) ∧
  decodeWord 0xA000 = .ok (.ldIAddr 0) ∧ decodeWord 0xD005 = .ok (.drwVxVyN 0 0 5) ∧
  decodeWord 0xD015 = .ok (.drwVxVyN 0 1 5) ∧ decodeWord 0x8AB4 = .ok (.addVxVy 10 11) ∧
  decodeWord 0x8AB8 = .error (.unknownOpcode 0x8AB8) ∧ decodeWord 0x5120 = .ok (.seVxVy 1 2) ∧
  decodeWord 0x5121 = .error (.unknownOpcode 0x5121) ∧ decodeWord 0x00E0 = .ok .cls ∧
  decodeWord 0x01E0 = .error (.unknownOpcode 0x01E0) ∧ decodeWord 0x0000 = .error (.unknownOpcode 0x0000) ∧
  decodeWord 0xF31E = .ok (.addIVx 3) ∧ decodeWord 0xE19E = .ok (.skpVx 1)

/-- Decoding the word of an instruction, or its bytes at the head of any bytes, gives the instruction back. -/
def Obligations.DecodeInvertsEncode : Prop :=
  (∀ i : Instr, decodeWord (encode i) = .ok i) ∧
  ∀ (i : Instr) (rest : List Byte), decode (encodeBytes i ++ rest) = .ok (i, rest)

/-- A word that decodes is the word of the instruction it decodes to: no bit of it is dropped. -/
def Obligations.EncodeInvertsDecode : Prop :=
  ∀ (w : Word) (i : Instr), decodeWord w = .ok i → encode i = w

/-- The words that are no instruction are exactly the families of spec/30_encoding.md section 5. -/
def Obligations.UnknownWordsAreTheListedFamilies : Prop :=
  ∀ w : Word,
    decodeWord w = .error (.unknownOpcode w) ↔
      (w.toNat / 4096 = 0x0 ∧ w.toNat ≠ 0x00E0 ∧ w.toNat ≠ 0x00EE) ∨
      ((w.toNat / 4096 = 0x5 ∨ w.toNat / 4096 = 0x9) ∧ w.toNat % 16 ≠ 0) ∨
      (w.toNat / 4096 = 0x8 ∧ w.toNat % 16 ∈ [0x8, 0x9, 0xA, 0xB, 0xC, 0xD, 0xF]) ∨
      (w.toNat / 4096 = 0xE ∧ w.toNat % 256 ∉ [0x9E, 0xA1]) ∨
      (w.toNat / 4096 = 0xF ∧ w.toNat % 256 ∉ [0x07, 0x0A, 0x15, 0x18, 0x1E, 0x29, 0x33, 0x55, 0x65])

/-- The 34 rows of the table are pairwise disjoint; a word that one selects decodes to what that row builds, a word that
none selects is unknown. -/
def Obligations.TableRowsAreDisjointAndDecide : Prop :=
  opcodeTable.length = 34 ∧
  opcodeTable.Pairwise (fun r q => ∀ w : Word, ¬ (w &&& r.mask = r.fixed ∧ w &&& q.mask = q.fixed)) ∧
  (∀ r ∈ opcodeTable, ∀ w : Word, w &&& r.mask = r.fixed → decodeWord w = .ok (r.build w)) ∧
  ∀ w : Word, (∀ r ∈ opcodeTable, w &&& r.mask ≠ r.fixed) → decodeWord w = .error (.unknownOpcode w)

/-! ### The step -/

/-- A running core whose two bytes at `PC` decode to `i` runs `i` with `PC` moved past them. The opcode is big-endian. -/
def Obligations.StepRunsTheDecodedInstruction : Prop :=
  ∀ (s : State) (i : Instr), s.Running → s.pc.toNat ≤ 0xFFE →
    decodeWord (BitVec.ofNat 16 (256 * (s.byte s.pc.toNat).toNat + (s.byte (s.pc.toNat + 1)).toNat)) = .ok i →
    step s = exec i { s with pc := s.pc + 2 }

/-- A running core with the encoding of `i` at `PC` runs `i`, for every instruction and every operand. -/
def Obligations.EncodedInstructionAtPcRuns : Prop :=
  ∀ (s : State) (i : Instr), s.Running → s.pc.toNat ≤ 0xFFE →
    (s.byte s.pc.toNat).toNat = (encode i).toNat / 256 →
    (s.byte (s.pc.toNat + 1)).toNat = (encode i).toNat % 256 →
    step s = exec i { s with pc := s.pc + 2 }

/-- A stopped core, and a core blocked in a key wait (the spec's own choice D7), change nothing at a step. -/
def Obligations.StoppedOrBlockedStepChangesNothing : Prop :=
  ∀ s : State, (s.err.valid = true ∨ (s.cfg.keyboardWired = true ∧ s.waitKey = true)) → step s = .next s

/-- A running core with `PC > 0xFFE` reads nothing, keeps `PC` and stops with code 2 (the spec's own choice D3). -/
def Obligations.FetchOutOfRangeStopsTheCore : Prop :=
  ∀ s : State, s.Running → 0xFFE < s.pc.toNat →
    step s = .next { s with err := { valid := true, code := 2, opcode := 0, addr := s.pc, info := 0 } }

/-- A running core whose word at `PC` decodes to nothing stops with code 1, the word and its address, `PC` past it. -/
def Obligations.UnknownOpcodeStopsTheCore : Prop :=
  ∀ (s : State) (w : Word), s.Running → s.pc.toNat ≤ 0xFFE →
    w.toNat = 256 * (s.byte s.pc.toNat).toNat + (s.byte (s.pc.toNat + 1)).toNat →
    decodeWord w = .error (.unknownOpcode w) →
    step s = .next { s with pc := s.pc + 2, err := { valid := true, code := 1, opcode := w, addr := s.pc, info := 0 } }

/-- Every instruction on every operand and state, and every event, is answered with a next state: no host fault, no
refusal. -/
def Obligations.EveryInstructionAndEventAnswersANextState : Prop :=
  (∀ (i : Instr) (s : State), ∃ t, exec i s = .next t) ∧ ∀ (e : Event) (s : State), ∃ t, handle e s = .next t

/-! ### Invariants -/

/-- Every step keeps the invariant of the core. -/
def Obligations.StepKeepsInvariant : Prop := ∀ s t : State, s.Inv → step s = .next t → t.Inv

/-- The invariant holds right after reset, whatever the parameters. -/
def Obligations.ResetMeetsInvariant : Prop := State.reset.Inv ∧ ∀ c : Config, (State.resetWith c).Inv

/-- Every sequence of events keeps the invariant, from any state that has it. -/
def Obligations.EveryEventKeepsInvariant : Prop :=
  ∀ (es : List Event) (s t : State), s.Inv → handleAll es s = .next t → t.Inv

/-- No event changes a parameter; a step takes at most one random byte and one key answer and emits at most one `clear`,
and no other event does any of these (the counters are the model's own: log 2, log 3, log 4, log 5). -/
def Obligations.ParametersStayAndInputsCountUp : Prop :=
  (∀ (e : Event) (s t : State), handle e s = .next t → t.cfg = s.cfg) ∧
  (∀ s t : State, step s = .next t →
    s.draws ≤ t.draws ∧ s.polls ≤ t.polls ∧ s.clears ≤ t.clears ∧
    (t.draws - s.draws) + (t.polls - s.polls) + (t.clears - s.clears) ≤ 1) ∧
  ∀ (e : Event) (s t : State), e ≠ .step → handle e s = .next t →
    t.draws = s.draws ∧ t.polls = s.polls ∧ t.clears = s.clears

/-! ### Whole-machine rules -/

/-- Which general register each instruction can change: its destination, the flag register for the six flag writers, the
block for `LD Vx,[I]`, and none for the rest. In particular `V[0xF]` changes by no other instruction. -/
def Obligations.RegistersChangeOnlyWhereTheTableSays : Prop :=
  ∀ (i : Instr) (s t : State) (r : Reg), exec i s = .next t → t.reg r ≠ s.reg r →
    match i with
    | .ldVxKk x _ | .addVxKk x _ | .ldVxVy x _ | .orVxVy x _ | .andVxVy x _ | .xorVxVy x _ => r = x
    | .rndVxKk x _ | .ldVxDt x => r = x
    | .addVxVy x _ | .subVxVy x _ | .shrVx x _ | .subnVxVy x _ | .shlVx x _ => r = x ∨ r = vf
    | .drwVxVyN _ _ _ => r = vf
    | .ldVxMem x => r ≤ x
    | .cls | .ret | .jpAddr _ | .callAddr _ | .seVxKk _ _ | .sneVxKk _ _ | .seVxVy _ _ | .sneVxVy _ _ => False
    | .ldIAddr _ | .jpV0Addr _ | .skpVx _ | .sknpVx _ | .ldVxK _ | .ldDtVx _ | .ldStVx _ | .addIVx _ => False
    | .ldFVx _ | .ldBVx _ | .ldMemVx _ => False

/-- Which handler can change which state: the columns of the table of spec/10_state.md section 9. -/
def Obligations.OnlyTheNamedInstructionsWrite : Prop :=
  ∀ (i : Instr) (s t : State), exec i s = .next t →
    ((∃ a, t.byte a ≠ s.byte a) → (∃ x, i = .ldBVx x) ∨ ∃ x, i = .ldMemVx x) ∧
    (t.i ≠ s.i → (∃ a, i = .ldIAddr a) ∨ (∃ x, i = .addIVx x) ∨ ∃ x, i = .ldFVx x) ∧
    (t.sp ≠ s.sp ∨ t.stack ≠ s.stack → i = .ret ∨ ∃ a, i = .callAddr a) ∧
    (t.stack ≠ s.stack → ∃ a, i = .callAddr a) ∧
    (t.pc ≠ s.pc → i = .ret ∨ (∃ a, i = .jpAddr a ∨ i = .callAddr a ∨ i = .jpV0Addr a) ∨
      (∃ x k, i = .seVxKk x k ∨ i = .sneVxKk x k) ∨ (∃ x y, i = .seVxVy x y ∨ i = .sneVxVy x y) ∨
      (s.cfg.keyboardWired = true ∧ ∃ x, i = .skpVx x ∨ i = .sknpVx x)) ∧
    (t.dt ≠ s.dt → ∃ x, i = .ldDtVx x) ∧
    (t.st ≠ s.st → ∃ x, i = .ldStVx x) ∧
    (t.disp ≠ s.disp → i = .cls ∨ ∃ x y n, i = .drwVxVyN x y n) ∧
    (t.df ≠ s.df → t.df = true ∧ ∃ x y n, i = .drwVxVyN x y n) ∧
    (t.waitKey ≠ s.waitKey ∨ t.waitX ≠ s.waitX → s.cfg.keyboardWired = true ∧ ∃ x, i = .ldVxK x) ∧
    (t.draws ≠ s.draws → ∃ x k, i = .rndVxKk x k) ∧
    (t.polls ≠ s.polls → s.cfg.keyboardWired = true ∧ ∃ x, i = .skpVx x ∨ i = .sknpVx x) ∧
    (t.clears ≠ s.clears → i = .cls ∧ t.clears = s.clears + 1)

/-- A step that faults writes `ERR` and moves `PC` past the word, or not if nothing was fetched, and changes nothing
else; `ERR` identifies the opcode and its address (spec/60_exceptions.md section 3, the spec's decision D19). -/
def Obligations.StepFaultIsPrecise : Prop :=
  ∀ s t : State, s.err.valid = false → step s = .next t → t.err.valid = true →
    t = { s with pc := t.pc, err := t.err } ∧ t.err.addr = s.pc ∧
    ((t.err.code = 2 ∧ t.err.opcode = 0 ∧ t.pc = s.pc) ∨
     (t.err.code ≠ 2 ∧ s.pc.toNat ≤ 0xFFE ∧ t.pc = s.pc + 2 ∧
      t.err.opcode.toNat = 256 * (s.byte s.pc.toNat).toNat + (s.byte (s.pc.toNat + 1)).toNat))

/-- Only nine instructions have faults of their own, each its own causes (spec/60_exceptions.md section 3). -/
def Obligations.OnlyTheListedInstructionsFault : Prop :=
  ∀ (i : Instr) (s t : State), s.err.valid = false → exec i s = .next t → t.err ≠ s.err →
    t = { s with err := t.err } ∧ t.err.valid = true ∧
    ((i = .ret ∧ t.err.code = 5) ∨ ((∃ a, i = .callAddr a) ∧ t.err.code = 4) ∨
     ((∃ x y n, i = .drwVxVyN x y n) ∧ (t.err.code = 3 ∨ t.err.code = 7)) ∨
     ((∃ x, i = .addIVx x) ∧ t.err.code = 6) ∨
     ((∃ x, i = .ldBVx x ∨ i = .ldMemVx x ∨ i = .ldVxMem x) ∧ t.err.code = 3) ∨
     ((∃ x, i = .skpVx x ∨ i = .sknpVx x) ∧ s.cfg.keyboardWired = true ∧ t.err.code = 8))

/-- Once `ERR_VALID` is 1 only `reset` changes `ERR`, and `reset` clears it. -/
def Obligations.OnlyResetClearsTheError : Prop :=
  (∀ (e : Event) (s t : State), e ≠ .reset → s.err.valid = true → handle e s = .next t → t.err = s.err) ∧
  ∀ s t : State, handle .reset s = .next t → t.err.valid = false

/-- No step reads `DF` or `ST`: with other values there, it does the same to everything else. -/
def Obligations.StepIgnoresRedrawFlagAndSoundTimer : Prop :=
  ∀ (s t : State) (b : Bool) (c : Byte), step s = .next t →
    ∃ u, step { s with df := b, st := c } = .next u ∧ { u with df := t.df, st := t.st } = t ∧
      (u.df = b ∨ u.df = t.df) ∧ (u.st = c ∨ u.st = t.st)

/-! ### Register loads, arithmetic, logic, random -/

/-- Loads, the immediate add and the logic operations: the destination's value, and every other register and every other
piece of state as before. No flag is written. -/
def Obligations.LoadsAddAndLogicWriteTheDestination : Prop :=
  ∀ (x y : Reg) (kk : Byte) (s : State),
    let frame : State → Prop := fun t => t = { s with v := t.v } ∧ ∀ r, r ≠ x → t.reg r = s.reg r
    (∃ t, exec (.ldVxKk x kk) s = .next t ∧ t.reg x = kk ∧ frame t) ∧
    (∃ t, exec (.addVxKk x kk) s = .next t ∧ (t.reg x).toNat = ((s.reg x).toNat + kk.toNat) % 256 ∧ frame t) ∧
    (∃ t, exec (.ldVxVy x y) s = .next t ∧ t.reg x = s.reg y ∧ frame t) ∧
    (∃ t, exec (.orVxVy x y) s = .next t ∧ (t.reg x).toNat = (s.reg x).toNat ||| (s.reg y).toNat ∧ frame t) ∧
    (∃ t, exec (.andVxVy x y) s = .next t ∧ (t.reg x).toNat = (s.reg x).toNat &&& (s.reg y).toNat ∧ frame t) ∧
    (∃ t, exec (.xorVxVy x y) s = .next t ∧ (t.reg x).toNat = (s.reg x).toNat ^^^ (s.reg y).toNat ∧ frame t)

/-- `ADD Vx,Vy`: the sum of the old operands; the carry in `V[0xF]`, lost when `x = 0xF`. The written order of the
statements is the spec's own choice (D14). -/
def Obligations.AddWritesSumAndCarry : Prop :=
  ∀ (x y : Reg) (s : State), ∃ t, exec (.addVxVy x y) s = .next t ∧
    (t.reg x).toNat = ((s.reg x).toNat + (s.reg y).toNat) % 256 ∧
    (x ≠ vf → t.reg vf = if (s.reg x).toNat + (s.reg y).toNat > 255 then 1 else 0) ∧
    t = { s with v := t.v } ∧ ∀ r, r ≠ x → r ≠ vf → t.reg r = s.reg r

/-- `SUB` and `SUBN`, every case of their tables: the flag is strict, and the difference reads the registers after the
flag write (the spec's own choice D14). -/
def Obligations.SubtractsWriteDifferenceAndFlag : Prop :=
  ∀ (x y : Reg) (s : State),
    let frame : State → Prop := fun t => t = { s with v := t.v } ∧ ∀ r, r ≠ x → r ≠ vf → t.reg r = s.reg r
    let a := (s.reg x).toNat
    let b := (s.reg y).toNat
    let f := if a > b then 1 else 0
    let g := if b > a then 1 else 0
    (∃ t, exec (.subVxVy x y) s = .next t ∧ frame t ∧
      (x ≠ vf → (t.reg vf).toNat = f) ∧
      (x ≠ vf → y ≠ vf → (t.reg x).toNat = (a + 256 - b) % 256) ∧
      (x ≠ vf → y = vf → (t.reg x).toNat = (a + 256 - f) % 256) ∧
      (x = vf → y ≠ vf → (t.reg vf).toNat = (f + 256 - b) % 256) ∧
      (x = vf → y = vf → t.reg vf = 0)) ∧
    ∃ t, exec (.subnVxVy x y) s = .next t ∧ frame t ∧
      (x ≠ vf → (t.reg vf).toNat = g) ∧
      (x ≠ vf → y ≠ vf → (t.reg x).toNat = (b + 256 - a) % 256) ∧
      (x ≠ vf → y = vf → (t.reg x).toNat = (g + 256 - a) % 256) ∧
      (x = vf → y ≠ vf → (t.reg vf).toNat = (b + 256 - g) % 256) ∧
      (x = vf → y = vf → t.reg vf = 0)

/-- `SHR` and `SHL` shift `V[x]` in place by one and ignore `y`; with `x = 0xF` the shift reads the flag just written
(the spec's own choice D14). -/
def Obligations.ShiftsMoveABitToTheFlag : Prop :=
  ∀ (x y : Reg) (s : State),
    let frame : State → Prop := fun t => t = { s with v := t.v } ∧ ∀ r, r ≠ x → r ≠ vf → t.reg r = s.reg r
    let a := (s.reg x).toNat
    (∃ t, exec (.shrVx x y) s = .next t ∧ frame t ∧
      (x ≠ vf → (t.reg x).toNat = a / 2 ∧ (t.reg vf).toNat = a % 2) ∧ (x = vf → t.reg vf = 0)) ∧
    ∃ t, exec (.shlVx x y) s = .next t ∧ frame t ∧
      (x ≠ vf → (t.reg x).toNat = 2 * a % 256 ∧ (t.reg vf).toNat = a / 128) ∧
      (x = vf → (t.reg vf).toNat = 2 * (a / 128))

/-- `RND`: a free byte (log 3) masked with `kk`, one draw taken. It holds whatever the byte is. -/
def Obligations.RandomByteIsMasked : Prop :=
  ∀ (x : Reg) (kk : Byte) (s : State), ∃ t, exec (.rndVxKk x kk) s = .next t ∧
    t.reg x = Config.draw8 s.draws &&& kk ∧ (t.reg x).toNat &&& (255 - kk.toNat) = 0 ∧
    t = { s with v := t.v, draws := s.draws + 1 } ∧ ∀ r, r ≠ x → t.reg r = s.reg r

/-! ### The index register and memory -/

/-- `LD I,addr` and `LD F,Vx`: `I` alone is written, with the address, and with five times the whole register. -/
def Obligations.IndexLoadsAssignI : Prop :=
  ∀ (addr : BitVec 12) (x : Reg) (s : State),
    (∃ t, exec (.ldIAddr addr) s = .next t ∧ t.i.toNat = addr.toNat ∧ t = { s with i := t.i }) ∧
    ∃ t, exec (.ldFVx x) s = .next t ∧ t.i.toNat = 5 * (s.reg x).toNat ∧ t = { s with i := t.i }

/-- `ADD I,Vx`: the exact sum, or code 6 with the sum when it does not fit in 16 bits (the spec's own choice D4). -/
def Obligations.AddToIndexIsExactOrFaults : Prop :=
  ∀ (x : Reg) (s : State),
    (s.i.toNat + (s.reg x).toNat ≤ 0xFFFF →
      ∃ t, exec (.addIVx x) s = .next t ∧ t.i.toNat = s.i.toNat + (s.reg x).toNat ∧ t = { s with i := t.i }) ∧
    (0xFFFF < s.i.toNat + (s.reg x).toNat →
      exec (.addIVx x) s = .next (s.faultedWith 6 (0xF01E + 256 * x.val) (s.i.toNat + (s.reg x).toNat)))

/-- `LD B,Vx`: three decimal digits, hundreds first, and no other byte; code 3 with nothing written when they do not all
fit (the spec's own choices D2, D19). -/
def Obligations.BcdStoreWritesThreeDigits : Prop :=
  ∀ (x : Reg) (s : State),
    (s.i.toNat ≤ 0xFFD →
      ∃ t, exec (.ldBVx x) s = .next t ∧ t = { s with mem := t.mem } ∧
        (t.byte s.i.toNat).toNat = (s.reg x).toNat / 100 ∧
        (t.byte (s.i.toNat + 1)).toNat = (s.reg x).toNat / 10 % 10 ∧
        (t.byte (s.i.toNat + 2)).toNat = (s.reg x).toNat % 10 ∧
        ∀ a, a < s.i.toNat ∨ s.i.toNat + 2 < a → t.byte a = s.byte a) ∧
    (0xFFD < s.i.toNat →
      exec (.ldBVx x) s = .next (s.faultedWith 3 (0xF033 + 256 * x.val) (max s.i.toNat 0x1000)))

/-- `LD [I],Vx`: `V[0]` to `V[x]` ascending from `I`, no other byte, `I` kept; code 3 with nothing written when they do
not all fit (the spec's own choices D2, D15, D19). -/
def Obligations.BlockStoreWritesTheRegisters : Prop :=
  ∀ (x : Reg) (s : State),
    (s.i.toNat + x.val ≤ 0xFFF →
      ∃ t, exec (.ldMemVx x) s = .next t ∧ t = { s with mem := t.mem } ∧
        (∀ r : Reg, r ≤ x → t.byte (s.i.toNat + r.val) = s.reg r) ∧
        ∀ a, a < s.i.toNat ∨ s.i.toNat + x.val < a → t.byte a = s.byte a) ∧
    (0xFFF < s.i.toNat + x.val →
      exec (.ldMemVx x) s = .next (s.faultedWith 3 (0xF055 + 256 * x.val) (max s.i.toNat 0x1000)))

/-- `LD Vx,[I]`: `V[0]` to `V[x]` from `I` ascending, `V[0xF]` like any other, the rest kept; code 3 with no register
loaded when they do not all fit (the spec's own choices D2, D15, D19). -/
def Obligations.BlockLoadReadsTheRegisters : Prop :=
  ∀ (x : Reg) (s : State),
    (s.i.toNat + x.val ≤ 0xFFF →
      ∃ t, exec (.ldVxMem x) s = .next t ∧ t = { s with v := t.v } ∧
        (∀ r : Reg, r ≤ x → t.reg r = s.byte (s.i.toNat + r.val)) ∧ ∀ r : Reg, x < r → t.reg r = s.reg r) ∧
    (0xFFF < s.i.toNat + x.val →
      exec (.ldVxMem x) s = .next (s.faultedWith 3 (0xF065 + 256 * x.val) (max s.i.toNat 0x1000)))

/-- After `LD [I],Vx`, whatever happens to the registers in between, `LD Vx,[I]` brings `V[0]` to `V[x]` back. -/
def Obligations.StoreThenLoadRestoresRegisters : Prop :=
  ∀ (x : Reg) (s : State), s.i.toNat + x.val ≤ 0xFFF →
    ∃ t, exec (.ldMemVx x) s = .next t ∧
      ∀ w : Vector Byte 16, ∃ u, exec (.ldVxMem x) { t with v := w } = .next u ∧ ∀ r : Reg, r ≤ x → u.reg r = s.reg r

/-- Bytes stored by `LD [I],Vx` where the next instruction is fetched are the instruction the very next step runs. -/
def Obligations.StoredBytesAreFetchedAtOnce : Prop :=
  ∀ (x r r' : Reg) (s : State) (i : Instr), s.Running → s.i.toNat + x.val ≤ 0xFFF →
    r' ≤ x → r'.val = r.val + 1 → s.pc.toNat = s.i.toNat + r.val →
    decodeWord (BitVec.ofNat 16 (256 * (s.reg r).toNat + (s.reg r').toNat)) = .ok i →
    ∃ t, exec (.ldMemVx x) s = .next t ∧ step t = exec i { t with pc := s.pc + 2 }

/-! ### Control transfer -/

/-- `JP addr` and `JP V0,addr`: `PC` alone is written, with the address, and with the sum that is not reduced. -/
def Obligations.JumpsAssignThePc : Prop :=
  ∀ (addr : BitVec 12) (s : State),
    (∃ t, exec (.jpAddr addr) s = .next t ∧ t.pc.toNat = addr.toNat ∧ t = { s with pc := t.pc }) ∧
    ∃ t, exec (.jpV0Addr addr) s = .next t ∧ t.pc.toNat = addr.toNat + (s.reg 0).toNat ∧ t = { s with pc := t.pc }

/-- A `JP` to its own address changes no state, for ever. -/
def Obligations.SelfJumpChangesNothing : Prop :=
  ∀ (s : State) (k : Nat), s.Running → s.pc.toNat ≤ 0xFFE →
    (s.byte s.pc.toNat).toNat = 0x10 + s.pc.toNat / 256 → (s.byte (s.pc.toNat + 1)).toNat = s.pc.toNat % 256 →
    Sys2Proof.core.run k s = .next s

/-- `CALL addr`: pushes the address of the next instruction and jumps; code 4 with nothing written on a full stack (the
spec's own choice D5). -/
def Obligations.CallPushesTheReturnAddress : Prop :=
  ∀ (addr : BitVec 12) (s : State),
    (s.sp.val < 16 →
      ∃ t, exec (.callAddr addr) s = .next t ∧ t.pc.toNat = addr.toNat ∧ t.sp.val = s.sp.val + 1 ∧
        t.stack[s.sp.val]? = some s.pc ∧ (∀ j, j ≠ s.sp.val → t.stack[j]? = s.stack[j]?) ∧
        t = { s with pc := t.pc, sp := t.sp, stack := t.stack }) ∧
    (s.sp.val = 16 → exec (.callAddr addr) s = .next (s.faultedWith 4 (0x2000 + addr.toNat) 0))

/-- `RET`: pops the last pushed address and keeps the slot; code 5 with nothing written on an empty stack (the spec's
own choice D5). -/
def Obligations.ReturnPopsTheAddress : Prop :=
  ∀ s : State,
    (0 < s.sp.val →
      ∃ t, exec .ret s = .next t ∧ t.sp.val = s.sp.val - 1 ∧ s.stack[s.sp.val - 1]? = some t.pc ∧
        t = { s with pc := t.pc, sp := t.sp }) ∧
    (s.sp.val = 0 → exec .ret s = .next (s.faultedWith 5 0x00EE 0))

/-- A `RET` that finds the stack pointer and the slot as a `CALL` left them goes to the instruction after the `CALL` and
restores the stack pointer, whatever else happened in between; and only a `CALL` with the stack pointer at a slot changes
that slot. -/
def Obligations.CallThenReturnComesBack : Prop :=
  (∀ (addr : BitVec 12) (s t u : State), s.sp.val < 16 → exec (.callAddr addr) s = .next t →
    u.sp.val = s.sp.val + 1 → u.stack[s.sp.val]? = t.stack[s.sp.val]? →
    ∃ r, exec .ret u = .next r ∧ r.pc = s.pc ∧ r.sp = s.sp) ∧
  ∀ (i : Instr) (s t : State) (j : Nat), exec i s = .next t → t.stack[j]? ≠ s.stack[j]? →
    (∃ addr, i = .callAddr addr) ∧ s.sp.val = j

/-- The four skips: `PC` is 2 further when the condition holds, and nothing else changes. -/
def Obligations.SkipsCompareAndMoveThePc : Prop :=
  ∀ (x y : Reg) (kk : Byte) (s : State),
    exec (.seVxKk x kk) s = .next { s with pc := if (s.reg x).toNat = kk.toNat then s.pc + 2 else s.pc } ∧
    exec (.sneVxKk x kk) s = .next { s with pc := if (s.reg x).toNat = kk.toNat then s.pc else s.pc + 2 } ∧
    exec (.seVxVy x y) s = .next { s with pc := if (s.reg x).toNat = (s.reg y).toNat then s.pc + 2 else s.pc } ∧
    exec (.sneVxVy x y) s = .next { s with pc := if (s.reg x).toNat = (s.reg y).toNat then s.pc else s.pc + 2 }

/-! ### The display -/

/-- `CLS`: every cell is 0 and one `clear` is emitted (its counter is the model's own, log 5); `V[0xF]` and `DF` stay
(the spec's own choice D10). -/
def Obligations.ClearScreenZeroesTheDisplay : Prop :=
  ∀ s : State, ∃ t, exec .cls s = .next t ∧ (∀ k, k < 2048 → t.disp[k]? = some false) ∧
    t.clears = s.clears + 1 ∧ t = { s with disp := t.disp, clears := t.clears }

/-- `DRW` with neither operand `V[0xF]`, when every row is readable and every set bit has a cell: each cell a set bit
lands in is toggled, no other; `V[0xF]` is 1 exactly when one of them held 1; `DF` is 1; nothing else changes. -/
def Obligations.SpriteDrawTogglesItsCells : Prop :=
  ∀ (x y : Reg) (n : BitVec 4) (s : State), x ≠ vf → y ≠ vf → s.spriteFits x y n.toNat →
    ∃ t, exec (.drwVxVyN x y n) s = .next t ∧
      (∀ k, k < 2048 →
        (t.lit k ↔ ((∃ cx cy, s.spriteAt n.toNat cx cy ∧ s.landsIn x y false (cx, cy) = k) ↔ ¬ s.lit k))) ∧
      ((∃ cx cy, s.spriteAt n.toNat cx cy ∧ s.lit (s.landsIn x y false (cx, cy))) → t.reg vf = 1) ∧
      ((¬ ∃ cx cy, s.spriteAt n.toNat cx cy ∧ s.lit (s.landsIn x y false (cx, cy))) → t.reg vf = 0) ∧
      t = { s with v := t.v, disp := t.disp, df := true } ∧ ∀ r, r ≠ vf → t.reg r = s.reg r

/-- `DRW` for every operand form, `V[0xF]` as an operand among them (the spec's own choice D14): with no collision each
pixel's cell is set and `V[0xF]` is 0; with a first collision at `p` the pixels up to `p` use the origin before it, those
after it the origin after it, each cell is toggled once for every pixel that lands in it, and `V[0xF]` is 1. -/
def Obligations.SpriteDrawFollowsTheMovingOrigin : Prop :=
  ∀ (x y : Reg) (n : BitVec 4) (s : State), s.rowsReadable n.toNat →
    let frame : State → Prop := fun t =>
      t = { s with v := t.v, disp := t.disp, df := true } ∧ ∀ r, r ≠ vf → t.reg r = s.reg r
    (s.drawnClean x y (s.spritePixels n.toNat) →
      ∃ t, exec (.drwVxVyN x y n) s = .next t ∧ frame t ∧ t.reg vf = 0 ∧
        ∀ k, k < 2048 → (t.lit k ↔ s.lit k ∨ k ∈ (s.spritePixels n.toNat).map (s.landsIn x y false))) ∧
    ∀ pre p post, s.spritePixels n.toNat = pre ++ p :: post → s.drawnColliding x y pre p post →
      ∃ t, exec (.drwVxVyN x y n) s = .next t ∧ frame t ∧ t.reg vf = 1 ∧
        ∀ k, k < 2048 →
          (t.lit k ↔
            (s.lit k ↔
              ((pre ++ [p]).map (s.landsIn x y false) ++ post.map (s.landsIn x y true)).count k % 2 = 0))

/-- `DRW` stops at the first fault in its order, for every operand form, and keeps nothing: code 3 at the first row that
is not in memory, code 7 at the first set bit whose cell does not exist (the spec's own choices D2, D19, D20). -/
def Obligations.SpriteDrawStopsAtTheFirstFault : Prop :=
  ∀ (x y : Reg) (n : BitVec 4) (s : State) (m : Nat) (c : Bool), s.rowsReadable m →
    (m < n.toNat → 0xFFF < s.i.toNat + m → s.drawn x y (s.spritePixels m) c →
      exec (.drwVxVyN x y n) s =
        .next (s.faultedWith 3 (0xD000 + 256 * x.val + 16 * y.val + n.toNat) (s.i.toNat + m))) ∧
    ∀ pre p post, m ≤ n.toNat → s.spritePixels m = pre ++ p :: post → s.drawn x y pre c →
      2047 < s.landsIn x y c p →
      exec (.drwVxVyN x y n) s =
        .next (s.faultedWith 7 (0xD000 + 256 * x.val + 16 * y.val + n.toNat) (s.landsIn x y c p))

/-- Drawing a sprite twice at one place restores the display, and the second draw reports a collision exactly when some
cell of the sprite held 0 before the first. -/
def Obligations.SpriteDrawTwiceRestoresTheDisplay : Prop :=
  ∀ (x y : Reg) (n : BitVec 4) (s : State), x ≠ vf → y ≠ vf → s.spriteFits x y n.toNat →
    ∃ t u, exec (.drwVxVyN x y n) s = .next t ∧ exec (.drwVxVyN x y n) t = .next u ∧ u.disp = s.disp ∧
      (u.reg vf = 1 ↔ ∃ cx cy, s.spriteAt n.toNat cx cy ∧ ¬ s.lit (s.landsIn x y false (cx, cy)))

/-- `wrap`, for both values of `WRAP_CMP`: reduced once at most, and the two differ only at the dimension itself (the
reading is the spec's open parameter D9). -/
def Obligations.WrapSubtractsOnce : Prop :=
  ∀ c dim : Nat,
    (c < dim → wrap .gt c dim = c ∧ wrap .ge c dim = c) ∧
    (c = dim → wrap .gt c dim = c ∧ wrap .ge c dim = 0) ∧
    (dim < c → wrap .gt c dim + dim = c ∧ wrap .ge c dim + dim = c)

/-- No two pixels of one sprite land in the same cell while the origin stands, for either value of `WRAP_CMP`. -/
def Obligations.SpritePixelsLandInDistinctCells : Prop :=
  ∀ (cmp : WrapCmp) (ox oy cx cy cx' cy' : Nat), ox < 256 → oy < 256 → cx < 8 → cx' < 8 → cy < 15 → cy' < 15 →
    cellOf cmp ox oy cx cy = cellOf cmp ox oy cx' cy' → cx = cx' ∧ cy = cy'

/-! ### Timers and keyboard -/

/-- `LD Vx,DT`, `LD DT,Vx`, `LD ST,Vx`: one register is copied, nothing else changes. -/
def Obligations.TimerRegistersAreCopied : Prop :=
  ∀ (x : Reg) (s : State),
    (∃ t, exec (.ldVxDt x) s = .next t ∧ t.reg x = s.dt ∧ t = { s with v := t.v } ∧
      ∀ r, r ≠ x → t.reg r = s.reg r) ∧
    exec (.ldDtVx x) s = .next { s with dt := s.reg x } ∧
    exec (.ldStVx x) s = .next { s with st := s.reg x }

/-- With no keyboard the three key instructions do nothing at all, whatever `V[x]` holds. -/
def Obligations.KeyInstructionsWithoutKeyboardDoNothing : Prop :=
  ∀ (x : Reg) (s : State), s.cfg.keyboardWired = false →
    exec (.skpVx x) s = .next s ∧ exec (.sknpVx x) s = .next s ∧ exec (.ldVxK x) s = .next s

/-- With a keyboard `SKP` and `SKNP` skip by the keyboard's answer (a free value, log 4) for the key `V[x]`, one answer
taken, and stop with code 8 when `V[x]` is no key (the spec's own choice D7). -/
def Obligations.KeySkipsFollowTheKeyboard : Prop :=
  ∀ (x : Reg) (s : State), s.cfg.keyboardWired = true →
    (∀ k : BitVec 4, (s.reg x).toNat = k.toNat →
      exec (.skpVx x) s =
        .next { s with polls := s.polls + 1, pc := if Config.isPressed s.polls k then s.pc + 2 else s.pc } ∧
      exec (.sknpVx x) s =
        .next { s with polls := s.polls + 1, pc := if Config.isPressed s.polls k then s.pc else s.pc + 2 }) ∧
    (15 < (s.reg x).toNat →
      exec (.skpVx x) s = .next (s.faultedWith 8 (0xE09E + 256 * x.val) (s.reg x).toNat) ∧
      exec (.sknpVx x) s = .next (s.faultedWith 8 (0xE0A1 + 256 * x.val) (s.reg x).toNat))

/-- With a keyboard `LD Vx,K` blocks the core: no number of steps changes anything, until `key(k)` writes the key's
number to `V[x]` and the core runs again (the spec's own choice D7). -/
def Obligations.KeyWaitHoldsUntilAKey : Prop :=
  ∀ (x : Reg) (s : State), s.cfg.keyboardWired = true →
    ∃ t, exec (.ldVxK x) s = .next t ∧ t = { s with waitKey := true, waitX := x } ∧
      (∀ n, Sys2Proof.core.run n t = .next t) ∧
      ∀ k : BitVec 4, ∃ u, handle (.key k) t = .next u ∧ (u.reg x).toNat = k.toNat ∧
        (∀ r, r ≠ x → u.reg r = t.reg r) ∧ u = { t with v := u.v, waitKey := false } ∧
        (s.err.valid = false → u.Running)

/-! ### Reset and the host's events -/

/-- Reset writes every piece of state of the spec to its reset value, whatever it was: the table of spec/10_state.md
section 8. The values of the stack slots, `DF`, `ERR` and the key wait are the spec's own choices D11, D16, D17, D7. -/
def Obligations.ResetLeavesTheTableOfValues : Prop :=
  let ok : State → Prop := fun t =>
    (∀ a, (h : a < 80) → t.byte a = t.cfg.font[a]) ∧ (∀ a, 80 ≤ a → t.byte a = 0) ∧
    (∀ r, t.reg r = 0) ∧ t.i = 0 ∧ t.pc = 0x200 ∧ t.sp.val = 0 ∧ (∀ j, j < 16 → t.stack[j]? = some 0) ∧
    t.dt = 0 ∧ t.st = 0 ∧ (∀ k, k < 2048 → t.disp[k]? = some false) ∧ t.df = false ∧
    t.err = { valid := false, code := 0, opcode := 0, addr := 0, info := 0 } ∧ t.waitKey = false ∧ t.waitX = 0
  ok State.reset ∧ State.reset.cfg = Config.default ∧ ∀ s, ∃ t, handle .reset s = .next t ∧ ok t ∧ t.cfg = s.cfg

/-- `load(bytes)` places an image of at most 3584 bytes at 0x200, byte by byte, and writes nothing else, in any state and
any number of times. -/
def Obligations.LoadPlacesTheImage : Prop :=
  ∀ (bytes : List Byte) (s : State), bytes.length ≤ 3584 →
    replyTo (.load bytes) = .done ∧
    ∃ t, handle (.load bytes) s = .next t ∧ t = { s with mem := t.mem } ∧
      (∀ j, (h : j < bytes.length) → t.byte (0x200 + j) = bytes[j]) ∧
      ∀ a, a < 0x200 ∨ 0x200 + bytes.length ≤ a → t.byte a = s.byte a

/-- A load that does not fit is rejected and writes nothing (the spec's own choice D24). -/
def Obligations.OversizedLoadIsRejectedWhole : Prop :=
  ∀ (bytes : List Byte) (s : State), 3584 < bytes.length →
    replyTo (.load bytes) = .loadTooLarge bytes.length ∧ handle (.load bytes) s = .next s

/-- `timer_tick` counts both timers down to 0 when it is wired; `consume_redraw` clears `DF` alone; `key(k)` with no
wait changes nothing (the spec's own choices D6, D7, D11). Not wired, the spec has no event `timer_tick`: that it is
answered with the same state is the model's own reading (log 6). -/
def Obligations.HostEventsTouchOnlyTheirState : Prop :=
  ∀ (s : State) (k : BitVec 4),
    (s.cfg.timerTickWired = true →
      ∃ t, handle .timerTick s = .next t ∧ t.dt.toNat = s.dt.toNat - 1 ∧ t.st.toNat = s.st.toNat - 1 ∧
        t = { s with dt := t.dt, st := t.st }) ∧
    (s.cfg.timerTickWired = false → handle .timerTick s = .next s) ∧
    handle .consumeRedraw s = .next { s with df := false } ∧
    (s.waitKey = false → handle (.key k) s = .next s)
end

