-- ==== Sys2Proof/Laws/Decode.lean ====
section
/-! SUPPORT. The rows of the opcode table do not overlap, and what the decoder answers follows row by row. -/

namespace Sys2Proof

/-- Two rows differ in a bit that both fix. -/
def OpcodeRow.apart (r q : OpcodeRow) : Bool := (r.mask &&& q.mask) &&& (r.fixed ^^^ q.fixed) != 0

theorem opcodeTable_apart : opcodeTable.Pairwise (fun r q => r.apart q = true) := by decide

theorem OpcodeRow.not_both {r q : OpcodeRow} (h : r.apart q = true) {w : Word} (hr : r.selects w = true) :
    q.selects w = false := by
  by_contra hq
  simp only [Bool.not_eq_false, OpcodeRow.selects, beq_iff_eq] at hr hq
  simp only [OpcodeRow.apart, bne_iff_ne, ne_eq] at h
  apply h
  rw [← hr, ← hq]
  ext k hk
  simp
  cases r.mask[k] <;> cases q.mask[k] <;> simp

theorem find_of_pairwise {l : List OpcodeRow} (hp : l.Pairwise (fun r q => r.apart q = true)) {r : OpcodeRow}
    (hr : r ∈ l) {w : Word} (hs : r.selects w = true) : l.find? (fun r => r.selects w) = some r := by
  induction l with
  | nil => simp at hr
  | cons q rest ih =>
    rw [List.pairwise_cons] at hp
    rcases List.mem_cons.1 hr with rfl | hr
    · simp [hs]
    · have hq : q.selects w = false := by
        by_contra hc
        have := OpcodeRow.not_both (hp.1 r hr) (by simpa using hc)
        simp [hs] at this
      simpa [hq] using ih hp.2 hr

/-- A word that a row selects decodes to what the row builds from it. -/
theorem decodeWord_of_selects {r : OpcodeRow} (hr : r ∈ opcodeTable) {w : Word} (hs : r.selects w = true) :
    decodeWord w = .ok (r.build w) := by
  simp [decodeWord, find_of_pairwise opcodeTable_apart hr hs]

/-- A decoded instruction comes from a row of the table that selects its word. -/
theorem row_of_decodeWord {w : Word} {i : Instr} (h : decodeWord w = .ok i) :
    ∃ r ∈ opcodeTable, r.selects w = true ∧ i = r.build w := by
  unfold decodeWord at h
  split at h
  · next r hr => exact ⟨r, List.mem_of_find?_eq_some hr, by simpa using List.find?_some hr, by simpa using h.symm⟩
  · simp at h

/-- A refused word is refused by its own name. -/
theorem decodeWord_error {w : Word} {e : DecodeError} (h : decodeWord w = .error e) : e = .unknownOpcode w := by
  unfold decodeWord at h
  split at h <;> simp_all

/-- The two bytes of a word, put together again. -/
@[simp] theorem wordOfBytes_bytes (w : Word) : wordOfBytes (hiByte w) (loByte w) = w := by
  ext k hk
  simp only [wordOfBytes, hiByte, loByte]
  by_cases h : k < 8
  · simp [h, BitVec.getLsbD_eq_getElem hk]
  · have : 8 + (k - 8) = k := by omega
    have h2 : k - 8 < 8 := by omega
    simp [h, this, h2, hk]

@[simp] theorem hiByte_wordOfBytes (hi lo : Byte) : hiByte (wordOfBytes hi lo) = hi := by
  ext k hk
  have : 8 + k < 16 := by omega
  simp [wordOfBytes, hiByte, this, hk]

@[simp] theorem loByte_wordOfBytes (hi lo : Byte) : loByte (wordOfBytes hi lo) = lo := by
  ext k hk
  have : k < 16 := by omega
  simp [wordOfBytes, loByte, this, hk]

/-! ### The fixed bits of an encoded word -/

theorem encodeNNN_and_op (op : BitVec 4) (a : BitVec 12) : encodeNNN op a &&& 0xF000 = op.setWidth 16 <<< 12 := by
  ext k hk
  interval_cases k <;> simp [encodeNNN]

theorem encodeXKK_and_op (op : BitVec 4) (x : Reg) (kk : Byte) :
    encodeXKK op x kk &&& 0xF000 = op.setWidth 16 <<< 12 := by
  ext k hk
  interval_cases k <;> simp [encodeXKK]

theorem encodeXKK_and_op_kk (op : BitVec 4) (x : Reg) (kk : Byte) :
    encodeXKK op x kk &&& 0xF0FF = op.setWidth 16 <<< 12 ||| kk.setWidth 16 := by
  ext k hk
  interval_cases k <;> simp [encodeXKK]

theorem encodeXYN_and_op (op : BitVec 4) (x y : Reg) (n : BitVec 4) :
    encodeXYN op x y n &&& 0xF000 = op.setWidth 16 <<< 12 := by
  ext k hk
  interval_cases k <;> simp [encodeXYN]

theorem encodeXYN_and_op_n (op : BitVec 4) (x y : Reg) (n : BitVec 4) :
    encodeXYN op x y n &&& 0xF00F = op.setWidth 16 <<< 12 ||| n.setWidth 16 := by
  ext k hk
  interval_cases k <;> simp [encodeXYN]

/-! ### The fields of an encoded word -/

@[simp] theorem regOfBits_regBits (r : Reg) : regOfBits (regBits r) = r := rfl

@[simp] theorem regBits_regOfBits (b : BitVec 4) : regBits (regOfBits b) = b := rfl

theorem addrOf_encodeNNN (op : BitVec 4) (a : BitVec 12) : addrOf (encodeNNN op a) = a := by
  ext k hk
  interval_cases k <;> simp [addrOf, encodeNNN]

theorem xOf_encodeXKK (op : BitVec 4) (x : Reg) (kk : Byte) : xOf (encodeXKK op x kk) = x := by
  refine Eq.trans (congrArg regOfBits ?_) (regOfBits_regBits x)
  ext k hk
  interval_cases k <;> simp [encodeXKK]

theorem kkOf_encodeXKK (op : BitVec 4) (x : Reg) (kk : Byte) : kkOf (encodeXKK op x kk) = kk := by
  ext k hk
  interval_cases k <;> simp [kkOf, encodeXKK]

theorem xOf_encodeXYN (op : BitVec 4) (x y : Reg) (n : BitVec 4) : xOf (encodeXYN op x y n) = x := by
  refine Eq.trans (congrArg regOfBits ?_) (regOfBits_regBits x)
  ext k hk
  interval_cases k <;> simp [encodeXYN]

theorem yOf_encodeXYN (op : BitVec 4) (x y : Reg) (n : BitVec 4) : yOf (encodeXYN op x y n) = y := by
  refine Eq.trans (congrArg regOfBits ?_) (regOfBits_regBits y)
  ext k hk
  interval_cases k <;> simp [encodeXYN]

theorem nOf_encodeXYN (op : BitVec 4) (x y : Reg) (n : BitVec 4) : nOf (encodeXYN op x y n) = n := by
  ext k hk
  interval_cases k <;> simp [nOf, encodeXYN]

end Sys2Proof
end

