-- ==== Sys2Proof/Laws/State.lean ====
section
/-! SUPPORT. One lemma per field of `State` per named update, so that no later proof unfolds a record update. -/

namespace Sys2Proof.Machine

variable (s : State)

/-! ### `State.storeBytes` -/

@[simp] theorem State.storeBytes_mem (a : Nat) (bs : List Byte) : (s.storeBytes a bs).mem = Memory.store s.cfg.font s.mem a bs := rfl
@[simp] theorem State.storeBytes_v (a : Nat) (bs : List Byte) : (s.storeBytes a bs).v = s.v := rfl
@[simp] theorem State.storeBytes_i (a : Nat) (bs : List Byte) : (s.storeBytes a bs).i = s.i := rfl
@[simp] theorem State.storeBytes_pc (a : Nat) (bs : List Byte) : (s.storeBytes a bs).pc = s.pc := rfl
@[simp] theorem State.storeBytes_sp (a : Nat) (bs : List Byte) : (s.storeBytes a bs).sp = s.sp := rfl
@[simp] theorem State.storeBytes_stack (a : Nat) (bs : List Byte) : (s.storeBytes a bs).stack = s.stack := rfl
@[simp] theorem State.storeBytes_dt (a : Nat) (bs : List Byte) : (s.storeBytes a bs).dt = s.dt := rfl
@[simp] theorem State.storeBytes_st (a : Nat) (bs : List Byte) : (s.storeBytes a bs).st = s.st := rfl
@[simp] theorem State.storeBytes_disp (a : Nat) (bs : List Byte) : (s.storeBytes a bs).disp = s.disp := rfl
@[simp] theorem State.storeBytes_df (a : Nat) (bs : List Byte) : (s.storeBytes a bs).df = s.df := rfl
@[simp] theorem State.storeBytes_err (a : Nat) (bs : List Byte) : (s.storeBytes a bs).err = s.err := rfl
@[simp] theorem State.storeBytes_waitKey (a : Nat) (bs : List Byte) : (s.storeBytes a bs).waitKey = s.waitKey := rfl
@[simp] theorem State.storeBytes_waitX (a : Nat) (bs : List Byte) : (s.storeBytes a bs).waitX = s.waitX := rfl
@[simp] theorem State.storeBytes_cfg (a : Nat) (bs : List Byte) : (s.storeBytes a bs).cfg = s.cfg := rfl
@[simp] theorem State.storeBytes_draws (a : Nat) (bs : List Byte) : (s.storeBytes a bs).draws = s.draws := rfl
@[simp] theorem State.storeBytes_polls (a : Nat) (bs : List Byte) : (s.storeBytes a bs).polls = s.polls := rfl
@[simp] theorem State.storeBytes_clears (a : Nat) (bs : List Byte) : (s.storeBytes a bs).clears = s.clears := rfl

/-! ### `State.setReg` -/

@[simp] theorem State.setReg_mem (r : Reg) (b : Byte) : (s.setReg r b).mem = s.mem := rfl
@[simp] theorem State.setReg_v (r : Reg) (b : Byte) : (s.setReg r b).v = s.v.set r b := rfl
@[simp] theorem State.setReg_i (r : Reg) (b : Byte) : (s.setReg r b).i = s.i := rfl
@[simp] theorem State.setReg_pc (r : Reg) (b : Byte) : (s.setReg r b).pc = s.pc := rfl
@[simp] theorem State.setReg_sp (r : Reg) (b : Byte) : (s.setReg r b).sp = s.sp := rfl
@[simp] theorem State.setReg_stack (r : Reg) (b : Byte) : (s.setReg r b).stack = s.stack := rfl
@[simp] theorem State.setReg_dt (r : Reg) (b : Byte) : (s.setReg r b).dt = s.dt := rfl
@[simp] theorem State.setReg_st (r : Reg) (b : Byte) : (s.setReg r b).st = s.st := rfl
@[simp] theorem State.setReg_disp (r : Reg) (b : Byte) : (s.setReg r b).disp = s.disp := rfl
@[simp] theorem State.setReg_df (r : Reg) (b : Byte) : (s.setReg r b).df = s.df := rfl
@[simp] theorem State.setReg_err (r : Reg) (b : Byte) : (s.setReg r b).err = s.err := rfl
@[simp] theorem State.setReg_waitKey (r : Reg) (b : Byte) : (s.setReg r b).waitKey = s.waitKey := rfl
@[simp] theorem State.setReg_waitX (r : Reg) (b : Byte) : (s.setReg r b).waitX = s.waitX := rfl
@[simp] theorem State.setReg_cfg (r : Reg) (b : Byte) : (s.setReg r b).cfg = s.cfg := rfl
@[simp] theorem State.setReg_draws (r : Reg) (b : Byte) : (s.setReg r b).draws = s.draws := rfl
@[simp] theorem State.setReg_polls (r : Reg) (b : Byte) : (s.setReg r b).polls = s.polls := rfl
@[simp] theorem State.setReg_clears (r : Reg) (b : Byte) : (s.setReg r b).clears = s.clears := rfl

/-! ### `State.setPc` -/

@[simp] theorem State.setPc_mem (w : Word) : (s.setPc w).mem = s.mem := rfl
@[simp] theorem State.setPc_v (w : Word) : (s.setPc w).v = s.v := rfl
@[simp] theorem State.setPc_i (w : Word) : (s.setPc w).i = s.i := rfl
@[simp] theorem State.setPc_pc (w : Word) : (s.setPc w).pc = w := rfl
@[simp] theorem State.setPc_sp (w : Word) : (s.setPc w).sp = s.sp := rfl
@[simp] theorem State.setPc_stack (w : Word) : (s.setPc w).stack = s.stack := rfl
@[simp] theorem State.setPc_dt (w : Word) : (s.setPc w).dt = s.dt := rfl
@[simp] theorem State.setPc_st (w : Word) : (s.setPc w).st = s.st := rfl
@[simp] theorem State.setPc_disp (w : Word) : (s.setPc w).disp = s.disp := rfl
@[simp] theorem State.setPc_df (w : Word) : (s.setPc w).df = s.df := rfl
@[simp] theorem State.setPc_err (w : Word) : (s.setPc w).err = s.err := rfl
@[simp] theorem State.setPc_waitKey (w : Word) : (s.setPc w).waitKey = s.waitKey := rfl
@[simp] theorem State.setPc_waitX (w : Word) : (s.setPc w).waitX = s.waitX := rfl
@[simp] theorem State.setPc_cfg (w : Word) : (s.setPc w).cfg = s.cfg := rfl
@[simp] theorem State.setPc_draws (w : Word) : (s.setPc w).draws = s.draws := rfl
@[simp] theorem State.setPc_polls (w : Word) : (s.setPc w).polls = s.polls := rfl
@[simp] theorem State.setPc_clears (w : Word) : (s.setPc w).clears = s.clears := rfl

/-! ### `State.setIndex` -/

@[simp] theorem State.setIndex_mem (w : Word) : (s.setIndex w).mem = s.mem := rfl
@[simp] theorem State.setIndex_v (w : Word) : (s.setIndex w).v = s.v := rfl
@[simp] theorem State.setIndex_i (w : Word) : (s.setIndex w).i = w := rfl
@[simp] theorem State.setIndex_pc (w : Word) : (s.setIndex w).pc = s.pc := rfl
@[simp] theorem State.setIndex_sp (w : Word) : (s.setIndex w).sp = s.sp := rfl
@[simp] theorem State.setIndex_stack (w : Word) : (s.setIndex w).stack = s.stack := rfl
@[simp] theorem State.setIndex_dt (w : Word) : (s.setIndex w).dt = s.dt := rfl
@[simp] theorem State.setIndex_st (w : Word) : (s.setIndex w).st = s.st := rfl
@[simp] theorem State.setIndex_disp (w : Word) : (s.setIndex w).disp = s.disp := rfl
@[simp] theorem State.setIndex_df (w : Word) : (s.setIndex w).df = s.df := rfl
@[simp] theorem State.setIndex_err (w : Word) : (s.setIndex w).err = s.err := rfl
@[simp] theorem State.setIndex_waitKey (w : Word) : (s.setIndex w).waitKey = s.waitKey := rfl
@[simp] theorem State.setIndex_waitX (w : Word) : (s.setIndex w).waitX = s.waitX := rfl
@[simp] theorem State.setIndex_cfg (w : Word) : (s.setIndex w).cfg = s.cfg := rfl
@[simp] theorem State.setIndex_draws (w : Word) : (s.setIndex w).draws = s.draws := rfl
@[simp] theorem State.setIndex_polls (w : Word) : (s.setIndex w).polls = s.polls := rfl
@[simp] theorem State.setIndex_clears (w : Word) : (s.setIndex w).clears = s.clears := rfl

/-! ### `State.setDt` -/

@[simp] theorem State.setDt_mem (b : Byte) : (s.setDt b).mem = s.mem := rfl
@[simp] theorem State.setDt_v (b : Byte) : (s.setDt b).v = s.v := rfl
@[simp] theorem State.setDt_i (b : Byte) : (s.setDt b).i = s.i := rfl
@[simp] theorem State.setDt_pc (b : Byte) : (s.setDt b).pc = s.pc := rfl
@[simp] theorem State.setDt_sp (b : Byte) : (s.setDt b).sp = s.sp := rfl
@[simp] theorem State.setDt_stack (b : Byte) : (s.setDt b).stack = s.stack := rfl
@[simp] theorem State.setDt_dt (b : Byte) : (s.setDt b).dt = b := rfl
@[simp] theorem State.setDt_st (b : Byte) : (s.setDt b).st = s.st := rfl
@[simp] theorem State.setDt_disp (b : Byte) : (s.setDt b).disp = s.disp := rfl
@[simp] theorem State.setDt_df (b : Byte) : (s.setDt b).df = s.df := rfl
@[simp] theorem State.setDt_err (b : Byte) : (s.setDt b).err = s.err := rfl
@[simp] theorem State.setDt_waitKey (b : Byte) : (s.setDt b).waitKey = s.waitKey := rfl
@[simp] theorem State.setDt_waitX (b : Byte) : (s.setDt b).waitX = s.waitX := rfl
@[simp] theorem State.setDt_cfg (b : Byte) : (s.setDt b).cfg = s.cfg := rfl
@[simp] theorem State.setDt_draws (b : Byte) : (s.setDt b).draws = s.draws := rfl
@[simp] theorem State.setDt_polls (b : Byte) : (s.setDt b).polls = s.polls := rfl
@[simp] theorem State.setDt_clears (b : Byte) : (s.setDt b).clears = s.clears := rfl

/-! ### `State.setSt` -/

@[simp] theorem State.setSt_mem (b : Byte) : (s.setSt b).mem = s.mem := rfl
@[simp] theorem State.setSt_v (b : Byte) : (s.setSt b).v = s.v := rfl
@[simp] theorem State.setSt_i (b : Byte) : (s.setSt b).i = s.i := rfl
@[simp] theorem State.setSt_pc (b : Byte) : (s.setSt b).pc = s.pc := rfl
@[simp] theorem State.setSt_sp (b : Byte) : (s.setSt b).sp = s.sp := rfl
@[simp] theorem State.setSt_stack (b : Byte) : (s.setSt b).stack = s.stack := rfl
@[simp] theorem State.setSt_dt (b : Byte) : (s.setSt b).dt = s.dt := rfl
@[simp] theorem State.setSt_st (b : Byte) : (s.setSt b).st = b := rfl
@[simp] theorem State.setSt_disp (b : Byte) : (s.setSt b).disp = s.disp := rfl
@[simp] theorem State.setSt_df (b : Byte) : (s.setSt b).df = s.df := rfl
@[simp] theorem State.setSt_err (b : Byte) : (s.setSt b).err = s.err := rfl
@[simp] theorem State.setSt_waitKey (b : Byte) : (s.setSt b).waitKey = s.waitKey := rfl
@[simp] theorem State.setSt_waitX (b : Byte) : (s.setSt b).waitX = s.waitX := rfl
@[simp] theorem State.setSt_cfg (b : Byte) : (s.setSt b).cfg = s.cfg := rfl
@[simp] theorem State.setSt_draws (b : Byte) : (s.setSt b).draws = s.draws := rfl
@[simp] theorem State.setSt_polls (b : Byte) : (s.setSt b).polls = s.polls := rfl
@[simp] theorem State.setSt_clears (b : Byte) : (s.setSt b).clears = s.clears := rfl

/-! ### `State.advance` -/

@[simp] theorem State.advance_mem : s.advance.mem = s.mem := rfl
@[simp] theorem State.advance_v : s.advance.v = s.v := rfl
@[simp] theorem State.advance_i : s.advance.i = s.i := rfl
@[simp] theorem State.advance_pc : s.advance.pc = s.pc + 2 := rfl
@[simp] theorem State.advance_sp : s.advance.sp = s.sp := rfl
@[simp] theorem State.advance_stack : s.advance.stack = s.stack := rfl
@[simp] theorem State.advance_dt : s.advance.dt = s.dt := rfl
@[simp] theorem State.advance_st : s.advance.st = s.st := rfl
@[simp] theorem State.advance_disp : s.advance.disp = s.disp := rfl
@[simp] theorem State.advance_df : s.advance.df = s.df := rfl
@[simp] theorem State.advance_err : s.advance.err = s.err := rfl
@[simp] theorem State.advance_waitKey : s.advance.waitKey = s.waitKey := rfl
@[simp] theorem State.advance_waitX : s.advance.waitX = s.waitX := rfl
@[simp] theorem State.advance_cfg : s.advance.cfg = s.cfg := rfl
@[simp] theorem State.advance_draws : s.advance.draws = s.draws := rfl
@[simp] theorem State.advance_polls : s.advance.polls = s.polls := rfl
@[simp] theorem State.advance_clears : s.advance.clears = s.clears := rfl

/-! ### `State.push` -/

@[simp] theorem State.push_mem (h : s.sp.val < 16) (w : Word) : (s.push h w).mem = s.mem := rfl
@[simp] theorem State.push_v (h : s.sp.val < 16) (w : Word) : (s.push h w).v = s.v := rfl
@[simp] theorem State.push_i (h : s.sp.val < 16) (w : Word) : (s.push h w).i = s.i := rfl
@[simp] theorem State.push_pc (h : s.sp.val < 16) (w : Word) : (s.push h w).pc = s.pc := rfl
@[simp] theorem State.push_sp (h : s.sp.val < 16) (w : Word) : (s.push h w).sp = ⟨s.sp.val + 1, by omega⟩ := rfl
@[simp] theorem State.push_stack (h : s.sp.val < 16) (w : Word) : (s.push h w).stack = s.stack.set s.sp.val w := rfl
@[simp] theorem State.push_dt (h : s.sp.val < 16) (w : Word) : (s.push h w).dt = s.dt := rfl
@[simp] theorem State.push_st (h : s.sp.val < 16) (w : Word) : (s.push h w).st = s.st := rfl
@[simp] theorem State.push_disp (h : s.sp.val < 16) (w : Word) : (s.push h w).disp = s.disp := rfl
@[simp] theorem State.push_df (h : s.sp.val < 16) (w : Word) : (s.push h w).df = s.df := rfl
@[simp] theorem State.push_err (h : s.sp.val < 16) (w : Word) : (s.push h w).err = s.err := rfl
@[simp] theorem State.push_waitKey (h : s.sp.val < 16) (w : Word) : (s.push h w).waitKey = s.waitKey := rfl
@[simp] theorem State.push_waitX (h : s.sp.val < 16) (w : Word) : (s.push h w).waitX = s.waitX := rfl
@[simp] theorem State.push_cfg (h : s.sp.val < 16) (w : Word) : (s.push h w).cfg = s.cfg := rfl
@[simp] theorem State.push_draws (h : s.sp.val < 16) (w : Word) : (s.push h w).draws = s.draws := rfl
@[simp] theorem State.push_polls (h : s.sp.val < 16) (w : Word) : (s.push h w).polls = s.polls := rfl
@[simp] theorem State.push_clears (h : s.sp.val < 16) (w : Word) : (s.push h w).clears = s.clears := rfl

/-! ### `State.pop` -/

@[simp] theorem State.pop_mem (h : 0 < s.sp.val) : (s.pop h).mem = s.mem := rfl
@[simp] theorem State.pop_v (h : 0 < s.sp.val) : (s.pop h).v = s.v := rfl
@[simp] theorem State.pop_i (h : 0 < s.sp.val) : (s.pop h).i = s.i := rfl
@[simp] theorem State.pop_pc (h : 0 < s.sp.val) : (s.pop h).pc = s.stack[s.sp.val - 1]'(by omega) := rfl
@[simp] theorem State.pop_sp (h : 0 < s.sp.val) : (s.pop h).sp = ⟨s.sp.val - 1, by omega⟩ := rfl
@[simp] theorem State.pop_stack (h : 0 < s.sp.val) : (s.pop h).stack = s.stack := rfl
@[simp] theorem State.pop_dt (h : 0 < s.sp.val) : (s.pop h).dt = s.dt := rfl
@[simp] theorem State.pop_st (h : 0 < s.sp.val) : (s.pop h).st = s.st := rfl
@[simp] theorem State.pop_disp (h : 0 < s.sp.val) : (s.pop h).disp = s.disp := rfl
@[simp] theorem State.pop_df (h : 0 < s.sp.val) : (s.pop h).df = s.df := rfl
@[simp] theorem State.pop_err (h : 0 < s.sp.val) : (s.pop h).err = s.err := rfl
@[simp] theorem State.pop_waitKey (h : 0 < s.sp.val) : (s.pop h).waitKey = s.waitKey := rfl
@[simp] theorem State.pop_waitX (h : 0 < s.sp.val) : (s.pop h).waitX = s.waitX := rfl
@[simp] theorem State.pop_cfg (h : 0 < s.sp.val) : (s.pop h).cfg = s.cfg := rfl
@[simp] theorem State.pop_draws (h : 0 < s.sp.val) : (s.pop h).draws = s.draws := rfl
@[simp] theorem State.pop_polls (h : 0 < s.sp.val) : (s.pop h).polls = s.polls := rfl
@[simp] theorem State.pop_clears (h : 0 < s.sp.val) : (s.pop h).clears = s.clears := rfl

/-! ### `State.loadRegs` -/

@[simp] theorem State.loadRegs_mem (a n : Nat) : (s.loadRegs a n).mem = s.mem := rfl
@[simp] theorem State.loadRegs_v (a n : Nat) : (s.loadRegs a n).v = (List.range n).foldl (fun v j => v.setIfInBounds j (s.byte (a + j))) s.v := rfl
@[simp] theorem State.loadRegs_i (a n : Nat) : (s.loadRegs a n).i = s.i := rfl
@[simp] theorem State.loadRegs_pc (a n : Nat) : (s.loadRegs a n).pc = s.pc := rfl
@[simp] theorem State.loadRegs_sp (a n : Nat) : (s.loadRegs a n).sp = s.sp := rfl
@[simp] theorem State.loadRegs_stack (a n : Nat) : (s.loadRegs a n).stack = s.stack := rfl
@[simp] theorem State.loadRegs_dt (a n : Nat) : (s.loadRegs a n).dt = s.dt := rfl
@[simp] theorem State.loadRegs_st (a n : Nat) : (s.loadRegs a n).st = s.st := rfl
@[simp] theorem State.loadRegs_disp (a n : Nat) : (s.loadRegs a n).disp = s.disp := rfl
@[simp] theorem State.loadRegs_df (a n : Nat) : (s.loadRegs a n).df = s.df := rfl
@[simp] theorem State.loadRegs_err (a n : Nat) : (s.loadRegs a n).err = s.err := rfl
@[simp] theorem State.loadRegs_waitKey (a n : Nat) : (s.loadRegs a n).waitKey = s.waitKey := rfl
@[simp] theorem State.loadRegs_waitX (a n : Nat) : (s.loadRegs a n).waitX = s.waitX := rfl
@[simp] theorem State.loadRegs_cfg (a n : Nat) : (s.loadRegs a n).cfg = s.cfg := rfl
@[simp] theorem State.loadRegs_draws (a n : Nat) : (s.loadRegs a n).draws = s.draws := rfl
@[simp] theorem State.loadRegs_polls (a n : Nat) : (s.loadRegs a n).polls = s.polls := rfl
@[simp] theorem State.loadRegs_clears (a n : Nat) : (s.loadRegs a n).clears = s.clears := rfl

/-! ### `State.clearDisplay` -/

@[simp] theorem State.clearDisplay_mem : s.clearDisplay.mem = s.mem := rfl
@[simp] theorem State.clearDisplay_v : s.clearDisplay.v = s.v := rfl
@[simp] theorem State.clearDisplay_i : s.clearDisplay.i = s.i := rfl
@[simp] theorem State.clearDisplay_pc : s.clearDisplay.pc = s.pc := rfl
@[simp] theorem State.clearDisplay_sp : s.clearDisplay.sp = s.sp := rfl
@[simp] theorem State.clearDisplay_stack : s.clearDisplay.stack = s.stack := rfl
@[simp] theorem State.clearDisplay_dt : s.clearDisplay.dt = s.dt := rfl
@[simp] theorem State.clearDisplay_st : s.clearDisplay.st = s.st := rfl
@[simp] theorem State.clearDisplay_disp : s.clearDisplay.disp = Vector.replicate 2048 false := rfl
@[simp] theorem State.clearDisplay_df : s.clearDisplay.df = s.df := rfl
@[simp] theorem State.clearDisplay_err : s.clearDisplay.err = s.err := rfl
@[simp] theorem State.clearDisplay_waitKey : s.clearDisplay.waitKey = s.waitKey := rfl
@[simp] theorem State.clearDisplay_waitX : s.clearDisplay.waitX = s.waitX := rfl
@[simp] theorem State.clearDisplay_cfg : s.clearDisplay.cfg = s.cfg := rfl
@[simp] theorem State.clearDisplay_draws : s.clearDisplay.draws = s.draws := rfl
@[simp] theorem State.clearDisplay_polls : s.clearDisplay.polls = s.polls := rfl
@[simp] theorem State.clearDisplay_clears : s.clearDisplay.clears = s.clears + 1 := rfl

/-! ### `State.beginWait` -/

@[simp] theorem State.beginWait_mem (x : Reg) : (s.beginWait x).mem = s.mem := rfl
@[simp] theorem State.beginWait_v (x : Reg) : (s.beginWait x).v = s.v := rfl
@[simp] theorem State.beginWait_i (x : Reg) : (s.beginWait x).i = s.i := rfl
@[simp] theorem State.beginWait_pc (x : Reg) : (s.beginWait x).pc = s.pc := rfl
@[simp] theorem State.beginWait_sp (x : Reg) : (s.beginWait x).sp = s.sp := rfl
@[simp] theorem State.beginWait_stack (x : Reg) : (s.beginWait x).stack = s.stack := rfl
@[simp] theorem State.beginWait_dt (x : Reg) : (s.beginWait x).dt = s.dt := rfl
@[simp] theorem State.beginWait_st (x : Reg) : (s.beginWait x).st = s.st := rfl
@[simp] theorem State.beginWait_disp (x : Reg) : (s.beginWait x).disp = s.disp := rfl
@[simp] theorem State.beginWait_df (x : Reg) : (s.beginWait x).df = s.df := rfl
@[simp] theorem State.beginWait_err (x : Reg) : (s.beginWait x).err = s.err := rfl
@[simp] theorem State.beginWait_waitKey (x : Reg) : (s.beginWait x).waitKey = true := rfl
@[simp] theorem State.beginWait_waitX (x : Reg) : (s.beginWait x).waitX = x := rfl
@[simp] theorem State.beginWait_cfg (x : Reg) : (s.beginWait x).cfg = s.cfg := rfl
@[simp] theorem State.beginWait_draws (x : Reg) : (s.beginWait x).draws = s.draws := rfl
@[simp] theorem State.beginWait_polls (x : Reg) : (s.beginWait x).polls = s.polls := rfl
@[simp] theorem State.beginWait_clears (x : Reg) : (s.beginWait x).clears = s.clears := rfl

/-! ### `State.tookDraw` -/

@[simp] theorem State.tookDraw_mem : s.tookDraw.mem = s.mem := rfl
@[simp] theorem State.tookDraw_v : s.tookDraw.v = s.v := rfl
@[simp] theorem State.tookDraw_i : s.tookDraw.i = s.i := rfl
@[simp] theorem State.tookDraw_pc : s.tookDraw.pc = s.pc := rfl
@[simp] theorem State.tookDraw_sp : s.tookDraw.sp = s.sp := rfl
@[simp] theorem State.tookDraw_stack : s.tookDraw.stack = s.stack := rfl
@[simp] theorem State.tookDraw_dt : s.tookDraw.dt = s.dt := rfl
@[simp] theorem State.tookDraw_st : s.tookDraw.st = s.st := rfl
@[simp] theorem State.tookDraw_disp : s.tookDraw.disp = s.disp := rfl
@[simp] theorem State.tookDraw_df : s.tookDraw.df = s.df := rfl
@[simp] theorem State.tookDraw_err : s.tookDraw.err = s.err := rfl
@[simp] theorem State.tookDraw_waitKey : s.tookDraw.waitKey = s.waitKey := rfl
@[simp] theorem State.tookDraw_waitX : s.tookDraw.waitX = s.waitX := rfl
@[simp] theorem State.tookDraw_cfg : s.tookDraw.cfg = s.cfg := rfl
@[simp] theorem State.tookDraw_draws : s.tookDraw.draws = s.draws + 1 := rfl
@[simp] theorem State.tookDraw_polls : s.tookDraw.polls = s.polls := rfl
@[simp] theorem State.tookDraw_clears : s.tookDraw.clears = s.clears := rfl

/-! ### `State.tookPoll` -/

@[simp] theorem State.tookPoll_mem : s.tookPoll.mem = s.mem := rfl
@[simp] theorem State.tookPoll_v : s.tookPoll.v = s.v := rfl
@[simp] theorem State.tookPoll_i : s.tookPoll.i = s.i := rfl
@[simp] theorem State.tookPoll_pc : s.tookPoll.pc = s.pc := rfl
@[simp] theorem State.tookPoll_sp : s.tookPoll.sp = s.sp := rfl
@[simp] theorem State.tookPoll_stack : s.tookPoll.stack = s.stack := rfl
@[simp] theorem State.tookPoll_dt : s.tookPoll.dt = s.dt := rfl
@[simp] theorem State.tookPoll_st : s.tookPoll.st = s.st := rfl
@[simp] theorem State.tookPoll_disp : s.tookPoll.disp = s.disp := rfl
@[simp] theorem State.tookPoll_df : s.tookPoll.df = s.df := rfl
@[simp] theorem State.tookPoll_err : s.tookPoll.err = s.err := rfl
@[simp] theorem State.tookPoll_waitKey : s.tookPoll.waitKey = s.waitKey := rfl
@[simp] theorem State.tookPoll_waitX : s.tookPoll.waitX = s.waitX := rfl
@[simp] theorem State.tookPoll_cfg : s.tookPoll.cfg = s.cfg := rfl
@[simp] theorem State.tookPoll_draws : s.tookPoll.draws = s.draws := rfl
@[simp] theorem State.tookPoll_polls : s.tookPoll.polls = s.polls + 1 := rfl
@[simp] theorem State.tookPoll_clears : s.tookPoll.clears = s.clears := rfl

/-! ### `State.raise` -/

@[simp] theorem State.raise_mem (r : Raised) (o a : Word) : (s.raise r o a).mem = s.mem := rfl
@[simp] theorem State.raise_v (r : Raised) (o a : Word) : (s.raise r o a).v = s.v := rfl
@[simp] theorem State.raise_i (r : Raised) (o a : Word) : (s.raise r o a).i = s.i := rfl
@[simp] theorem State.raise_pc (r : Raised) (o a : Word) : (s.raise r o a).pc = s.pc := rfl
@[simp] theorem State.raise_sp (r : Raised) (o a : Word) : (s.raise r o a).sp = s.sp := rfl
@[simp] theorem State.raise_stack (r : Raised) (o a : Word) : (s.raise r o a).stack = s.stack := rfl
@[simp] theorem State.raise_dt (r : Raised) (o a : Word) : (s.raise r o a).dt = s.dt := rfl
@[simp] theorem State.raise_st (r : Raised) (o a : Word) : (s.raise r o a).st = s.st := rfl
@[simp] theorem State.raise_disp (r : Raised) (o a : Word) : (s.raise r o a).disp = s.disp := rfl
@[simp] theorem State.raise_df (r : Raised) (o a : Word) : (s.raise r o a).df = s.df := rfl
@[simp] theorem State.raise_err (r : Raised) (o a : Word) : (s.raise r o a).err = { valid := true, code := r.cause.code, opcode := o, addr := a, info := BitVec.ofNat 17 r.info } := rfl
@[simp] theorem State.raise_waitKey (r : Raised) (o a : Word) : (s.raise r o a).waitKey = s.waitKey := rfl
@[simp] theorem State.raise_waitX (r : Raised) (o a : Word) : (s.raise r o a).waitX = s.waitX := rfl
@[simp] theorem State.raise_cfg (r : Raised) (o a : Word) : (s.raise r o a).cfg = s.cfg := rfl
@[simp] theorem State.raise_draws (r : Raised) (o a : Word) : (s.raise r o a).draws = s.draws := rfl
@[simp] theorem State.raise_polls (r : Raised) (o a : Word) : (s.raise r o a).polls = s.polls := rfl
@[simp] theorem State.raise_clears (r : Raised) (o a : Word) : (s.raise r o a).clears = s.clears := rfl

/-! ### `State.raiseIn` -/

@[simp] theorem State.raiseIn_mem (j : Instr) (r : Raised) : (s.raiseIn j r).mem = s.mem := rfl
@[simp] theorem State.raiseIn_v (j : Instr) (r : Raised) : (s.raiseIn j r).v = s.v := rfl
@[simp] theorem State.raiseIn_i (j : Instr) (r : Raised) : (s.raiseIn j r).i = s.i := rfl
@[simp] theorem State.raiseIn_pc (j : Instr) (r : Raised) : (s.raiseIn j r).pc = s.pc := rfl
@[simp] theorem State.raiseIn_sp (j : Instr) (r : Raised) : (s.raiseIn j r).sp = s.sp := rfl
@[simp] theorem State.raiseIn_stack (j : Instr) (r : Raised) : (s.raiseIn j r).stack = s.stack := rfl
@[simp] theorem State.raiseIn_dt (j : Instr) (r : Raised) : (s.raiseIn j r).dt = s.dt := rfl
@[simp] theorem State.raiseIn_st (j : Instr) (r : Raised) : (s.raiseIn j r).st = s.st := rfl
@[simp] theorem State.raiseIn_disp (j : Instr) (r : Raised) : (s.raiseIn j r).disp = s.disp := rfl
@[simp] theorem State.raiseIn_df (j : Instr) (r : Raised) : (s.raiseIn j r).df = s.df := rfl
@[simp] theorem State.raiseIn_err (j : Instr) (r : Raised) : (s.raiseIn j r).err = { valid := true, code := r.cause.code, opcode := encode j, addr := s.pc - 2, info := BitVec.ofNat 17 r.info } := rfl
@[simp] theorem State.raiseIn_waitKey (j : Instr) (r : Raised) : (s.raiseIn j r).waitKey = s.waitKey := rfl
@[simp] theorem State.raiseIn_waitX (j : Instr) (r : Raised) : (s.raiseIn j r).waitX = s.waitX := rfl
@[simp] theorem State.raiseIn_cfg (j : Instr) (r : Raised) : (s.raiseIn j r).cfg = s.cfg := rfl
@[simp] theorem State.raiseIn_draws (j : Instr) (r : Raised) : (s.raiseIn j r).draws = s.draws := rfl
@[simp] theorem State.raiseIn_polls (j : Instr) (r : Raised) : (s.raiseIn j r).polls = s.polls := rfl
@[simp] theorem State.raiseIn_clears (j : Instr) (r : Raised) : (s.raiseIn j r).clears = s.clears := rfl

/-! ### `State.skipIf` -/

@[simp] theorem State.skipIf_mem (c : Bool) : (s.skipIf c).mem = s.mem := by cases c <;> rfl
@[simp] theorem State.skipIf_v (c : Bool) : (s.skipIf c).v = s.v := by cases c <;> rfl
@[simp] theorem State.skipIf_i (c : Bool) : (s.skipIf c).i = s.i := by cases c <;> rfl
@[simp] theorem State.skipIf_pc (c : Bool) : (s.skipIf c).pc = if c then s.pc + 2 else s.pc := by
  cases c <;> rfl
@[simp] theorem State.skipIf_sp (c : Bool) : (s.skipIf c).sp = s.sp := by cases c <;> rfl
@[simp] theorem State.skipIf_stack (c : Bool) : (s.skipIf c).stack = s.stack := by cases c <;> rfl
@[simp] theorem State.skipIf_dt (c : Bool) : (s.skipIf c).dt = s.dt := by cases c <;> rfl
@[simp] theorem State.skipIf_st (c : Bool) : (s.skipIf c).st = s.st := by cases c <;> rfl
@[simp] theorem State.skipIf_disp (c : Bool) : (s.skipIf c).disp = s.disp := by cases c <;> rfl
@[simp] theorem State.skipIf_df (c : Bool) : (s.skipIf c).df = s.df := by cases c <;> rfl
@[simp] theorem State.skipIf_err (c : Bool) : (s.skipIf c).err = s.err := by cases c <;> rfl
@[simp] theorem State.skipIf_waitKey (c : Bool) : (s.skipIf c).waitKey = s.waitKey := by cases c <;> rfl
@[simp] theorem State.skipIf_waitX (c : Bool) : (s.skipIf c).waitX = s.waitX := by cases c <;> rfl
@[simp] theorem State.skipIf_cfg (c : Bool) : (s.skipIf c).cfg = s.cfg := by cases c <;> rfl
@[simp] theorem State.skipIf_draws (c : Bool) : (s.skipIf c).draws = s.draws := by cases c <;> rfl
@[simp] theorem State.skipIf_polls (c : Bool) : (s.skipIf c).polls = s.polls := by cases c <;> rfl
@[simp] theorem State.skipIf_clears (c : Bool) : (s.skipIf c).clears = s.clears := by cases c <;> rfl

end Sys2Proof.Machine
end

