-- ==== Sys2Proof/Laws/Memory.lean ====
section
/-! SUPPORT. The laws of memory: a read after a write, and that every operation keeps the canonical form. -/

namespace Sys2Proof.Machine

variable {font : Vector Byte 80}

theorem Memory.read_drop_same (mem : List Host.Cell) (a : Nat) :
    Memory.read font (Memory.drop mem a) a = Memory.background font a := by
  induction mem with
  | nil => rfl
  | cons c rest ih =>
    obtain ⟨k, b⟩ := c
    by_cases h : k = a <;> simp_all [Memory.drop, Memory.read]

theorem Memory.read_drop_other (mem : List Host.Cell) {a a' : Nat} (h : a' ≠ a) :
    Memory.read font (Memory.drop mem a) a' = Memory.read font mem a' := by
  induction mem with
  | nil => rfl
  | cons c rest ih =>
    obtain ⟨k, b⟩ := c
    by_cases hk : k = a
    · subst hk
      simpa [Memory.drop, Memory.read, Ne.symm h] using ih
    · simp only [Memory.drop] at ih
      simp [Memory.drop, Memory.read, hk, ih]

theorem Memory.read_place_same (mem : List Host.Cell) (a : Nat) (b : Byte) (h : ∀ c ∈ mem, c.1 ≠ a) :
    Memory.read font (Memory.place a b mem) a = b := by
  induction mem with
  | nil => simp [Memory.place, Memory.read]
  | cons c rest ih =>
    obtain ⟨k, c⟩ := c
    have hk : k ≠ a := h (k, c) (by simp)
    have hr := ih fun c hc => h c (by simp [hc])
    by_cases hlt : a < k <;> simp [Memory.place, Memory.read, hlt, hk, hr]

theorem Memory.read_place_other (mem : List Host.Cell) {a a' : Nat} (b : Byte) (h : a' ≠ a) :
    Memory.read font (Memory.place a b mem) a' = Memory.read font mem a' := by
  induction mem with
  | nil => simp [Memory.place, Memory.read, Ne.symm h]
  | cons c rest ih =>
    obtain ⟨k, c⟩ := c
    by_cases hlt : a < k <;> simp [Memory.place, Memory.read, hlt, Ne.symm h, ih]

theorem Memory.mem_drop_ne {mem : List Host.Cell} {a : Nat} : ∀ c ∈ Memory.drop mem a, c.1 ≠ a := by
  simp [Memory.drop]

/-- A read after a write: the byte written at its address, every other address as before. -/
theorem Memory.read_write (mem : List Host.Cell) (a a' : Nat) (b : Byte) :
    Memory.read font (Memory.write font mem a b) a' = if a' = a then b else Memory.read font mem a' := by
  unfold Memory.write
  by_cases ha : a' = a
  · subst ha
    split
    · next h => simp [Memory.read_drop_same, h]
    · simp [Memory.read_place_same _ _ _ Memory.mem_drop_ne]
  · split <;> simp [ha, Memory.read_drop_other, Memory.read_place_other]

/-- A read after a block store: the bytes stored in their range, every other address as before. -/
theorem Memory.read_store (bytes : List Byte) (mem : List Host.Cell) (base a : Nat) :
    Memory.read font (Memory.store font mem base bytes) a =
      if h : base ≤ a ∧ a < base + bytes.length then bytes[a - base]'(by omega)
      else Memory.read font mem a := by
  induction bytes generalizing mem base with
  | nil => simp [Memory.store]
  | cons b rest ih =>
    simp only [Memory.store, ih, Memory.read_write, List.length_cons]
    by_cases h1 : a = base
    · subst h1; simp
    · by_cases h2 : base + 1 ≤ a ∧ a < base + 1 + rest.length
      · have h3 : a - base = (a - (base + 1)) + 1 := by omega
        rw [dif_pos h2, dif_pos (by omega)]
        simp [h3]
      · rw [dif_neg h2, dif_neg (by omega), if_neg h1]

/-! ### The canonical form -/

theorem Memory.wfFrom_mono {lo lo' : Nat} {mem : List Host.Cell} (h : lo' ≤ lo)
    (hw : Memory.wfFrom font lo mem = true) : Memory.wfFrom font lo' mem = true := by
  cases mem with
  | nil => rfl
  | cons c rest =>
    simp only [Memory.wfFrom, Bool.and_eq_true, decide_eq_true_eq] at hw ⊢
    exact ⟨⟨⟨by omega, hw.1.1.2⟩, hw.1.2⟩, hw.2⟩

theorem Memory.wfFrom_drop {lo a : Nat} {mem : List Host.Cell} (hw : Memory.wfFrom font lo mem = true) :
    Memory.wfFrom font lo (Memory.drop mem a) = true := by
  induction mem generalizing lo with
  | nil => rfl
  | cons c rest ih =>
    obtain ⟨k, b⟩ := c
    simp only [Memory.wfFrom, Bool.and_eq_true, decide_eq_true_eq] at hw
    by_cases hk : k = a
    · simpa [Memory.drop, hk] using Memory.wfFrom_mono (by omega) (ih hw.2)
    · have := ih hw.2
      simp only [Memory.drop] at this
      simp [Memory.drop, hk, Memory.wfFrom, hw.1.1.1, hw.1.1.2, hw.1.2, this]

theorem Memory.wfFrom_place {lo a : Nat} {b : Byte} {mem : List Host.Cell}
    (hw : Memory.wfFrom font lo mem = true) (hlo : lo ≤ a) (ha : a < 4096)
    (hb : b ≠ Memory.background font a) (hne : ∀ c ∈ mem, c.1 ≠ a) :
    Memory.wfFrom font lo (Memory.place a b mem) = true := by
  induction mem generalizing lo with
  | nil => simp [Memory.place, Memory.wfFrom, hlo, ha, hb]
  | cons c rest ih =>
    obtain ⟨k, c⟩ := c
    have hk : k ≠ a := hne (k, c) (by simp)
    simp only [Memory.wfFrom, Bool.and_eq_true, decide_eq_true_eq] at hw
    by_cases hlt : a < k
    · simp [Memory.place, hlt, Memory.wfFrom, hlo, ha, hb, hw.1.1.2, hw.1.2, hw.2]
    · have := ih hw.2 (by omega) fun c hc => hne c (by simp [hc])
      simp [Memory.place, hlt, Memory.wfFrom, hw.1.1.1, hw.1.1.2, hw.1.2, this]

/-- A write keeps the canonical form. -/
theorem Memory.wf_write {mem : List Host.Cell} {a : Nat} (b : Byte) (hw : Memory.wf font mem = true)
    (ha : a < 4096) : Memory.wf font (Memory.write font mem a b) = true := by
  unfold Memory.write
  split
  · exact Memory.wfFrom_drop hw
  · next hb => exact Memory.wfFrom_place (Memory.wfFrom_drop hw) (Nat.zero_le a) ha hb Memory.mem_drop_ne

/-- A block store inside the array keeps the canonical form. -/
theorem Memory.wf_store {mem : List Host.Cell} {base : Nat} {bytes : List Byte} (hw : Memory.wf font mem = true)
    (ha : base + bytes.length ≤ 4096) : Memory.wf font (Memory.store font mem base bytes) = true := by
  induction bytes generalizing mem base with
  | nil => exact hw
  | cons b rest ih =>
    simp only [List.length_cons] at ha
    exact ih (Memory.wf_write b hw (by omega)) (by omega)

/-- Memory after reset is canonical. -/
theorem Memory.wf_nil : Memory.wf font [] = true := rfl

/-- A byte read after a block store, at the level of the state. -/
theorem State.byte_storeBytes (s : State) (base a : Nat) (bytes : List Byte) :
    (s.storeBytes base bytes).byte a =
      if h : base ≤ a ∧ a < base + bytes.length then bytes[a - base]'(by omega) else s.byte a :=
  Memory.read_store bytes s.mem base a

end Sys2Proof.Machine
end

