-- ==== Sys2Proof/Laws/Ops.lean ====
section
/-! SUPPORT. What each shared operation of Machine/Ops.lean and Machine/Display.lean does, said once. -/

namespace Sys2Proof.Machine

/-! ### Registers -/

/-- A register after a register write. -/
@[simp] theorem State.reg_setReg (s : State) (r r' : Reg) (b : Byte) :
    (s.setReg r b).reg r' = if r' = r then b else s.reg r' := by
  simp only [State.reg, State.setReg, Fin.getElem_fin, Vector.getElem_set]
  by_cases h : r' = r
  · simp [h]
  · have : r.val ≠ r'.val := fun hc => h (Fin.ext hc.symm)
    simp [h, this]

/-- What a skip leaves. -/
theorem State.skipIf_eq (s : State) (c : Bool) : s.skipIf c = s.setPc (if c then s.pc + 2 else s.pc) := by
  cases c <;> rfl

theorem foldl_setIfInBounds_getElem (f : Nat → Byte) (n : Nat) (v : Vector Byte 16) (j : Nat) (hj : j < 16) :
    ((List.range n).foldl (fun v j => v.setIfInBounds j (f j)) v)[j] = if j < n then f j else v[j] := by
  induction n with
  | zero => simp
  | succ n ih =>
    rw [List.range_succ, List.foldl_append]
    simp only [List.foldl_cons, List.foldl_nil, Vector.getElem_setIfInBounds, ih]
    by_cases h : n = j
    · subst h; simp
    · simp only [h, if_false]
      congr 1
      simp only [eq_iff_iff]; omega

/-- A register after a block load: loaded below the count, as before from it up. -/
theorem State.reg_loadRegs (s : State) (base count : Nat) (r : Reg) :
    (s.loadRegs base count).reg r = if r.val < count then s.byte (base + r.val) else s.reg r := by
  simp only [State.reg, State.loadRegs, Fin.getElem_fin]
  exact foldl_setIfInBounds_getElem _ _ _ _ _

/-! ### Faults -/

/-- A handler that faults answers the state of fault entry. -/
theorem faulted_eq (i : Instr) (r : Raised) (s : State) : faulted i r s = .next (s.raiseIn i r) := rfl

/-- Fault entry writes `ERR` alone. -/
theorem State.raiseIn_eq (s : State) (i : Instr) (r : Raised) :
    s.raiseIn i r = { s with err := ⟨true, r.cause.code, encode i, s.pc - 2, BitVec.ofNat 17 r.info⟩ } := rfl

/-- The range check passes exactly when the last address is in the array. -/
theorem State.rangeFault_none_iff (s : State) (last : Nat) :
    s.rangeFault last = none ↔ s.i.toNat + last ≤ 0xFFF := by
  simp [State.rangeFault, State.ea]

/-- What a failed range check raises. -/
theorem State.rangeFault_some (s : State) (last : Nat) {r : Raised} (h : s.rangeFault last = some r) :
    0xFFF < s.i.toNat + last ∧ r = { cause := .memOutOfRange, info := max s.i.toNat 0x1000 } := by
  by_cases hc : s.ea last > 0xFFF
  · rw [State.rangeFault, if_pos hc] at h
    exact ⟨hc, (Option.some.inj h).symm⟩
  · rw [State.rangeFault, if_neg hc] at h
    simp at h

theorem State.memRead_ok (s : State) {a : Nat} (h : a ≤ 0xFFF) : s.memRead a = .ok (s.byte a) := by
  simp [State.memRead]; omega

theorem State.memRead_error (s : State) {a : Nat} (h : 0xFFF < a) :
    s.memRead a = .error { cause := .memOutOfRange, info := a } := by
  simp [State.memRead, h]

/-- Every cause has a code from 1 to 8. -/
theorem Cause.code_bounds (c : Cause) : 1 ≤ c.code.toNat ∧ c.code.toNat ≤ 8 := by
  cases c <;> decide

/-! ### The sprite -/

/-- The two spellings of a sprite bit: column `cx` is bit `7 - cx`. -/
theorem spriteBit_eq (b : Byte) {cx : Nat} (h : cx < 8) : spriteBit b cx = b.toNat.testBit (7 - cx) := by
  simp [spriteBit, BitVec.getMsbD, h, BitVec.getLsbD]

/-- A drawn pixel toggles its cell, and marks a collision where the cell was set. -/
theorem drawPixel_ok {cmp : WrapCmp} {x y : Reg} {cy cx : Nat} {c c' : Canvas}
    (h : drawPixel cmp x y cy cx c = .ok c') :
    ∃ hk : cellOf cmp c.v[x].toNat c.v[y].toNat cx cy < 2048,
      c'.disp = c.disp.set _ (!c.disp[cellOf cmp c.v[x].toNat c.v[y].toNat cx cy]) hk ∧
      c'.v = if c.disp[cellOf cmp c.v[x].toNat c.v[y].toNat cx cy] then c.v.set vf 1 else c.v := by
  unfold drawPixel at h
  simp only at h
  split at h
  · next hk => obtain rfl := Except.ok.inj h; exact ⟨hk, rfl, rfl⟩
  · simp at h

/-- A pixel that is not drawn raises `DisplayOutOfRange` with the index of its cell. -/
theorem drawPixel_error {cmp : WrapCmp} {x y : Reg} {cy cx : Nat} {c : Canvas} {r : Raised}
    (h : drawPixel cmp x y cy cx c = .error r) :
    2047 < cellOf cmp c.v[x].toNat c.v[y].toNat cx cy ∧
      r = { cause := .displayOutOfRange, info := cellOf cmp c.v[x].toNat c.v[y].toNat cx cy } := by
  unfold drawPixel at h
  simp only at h
  split at h
  · simp at h
  · exact ⟨by omega, (Except.error.inj h).symm⟩

/-- An invariant of the canvas that every pixel keeps is kept by a whole fold of pixels. -/
theorem foldlM_keeps {α : Type} {f : Canvas → α → Except Raised Canvas} {P : Canvas → Prop}
    (hf : ∀ c a c', f c a = .ok c' → P c → P c') :
    ∀ (l : List α) (c c' : Canvas), l.foldlM f c = .ok c' → P c → P c'
  | [], c, c', h, hp => by
    have : c = c' := by simpa [pure, Except.pure] using h
    exact this ▸ hp
  | a :: l, c, c', h, hp => by
    rw [List.foldlM_cons] at h
    cases hc : f c a with
    | error r => simp [hc, bind, Except.bind] at h
    | ok d =>
      simp only [hc, bind, Except.bind] at h
      exact foldlM_keeps hf l d c' h (hf c a d hc hp)

/-- A drawn sprite changes no register but `V[0xF]`, and leaves 0 or 1 there if 0 or 1 was there. -/
theorem drawRows_regs {s : State} {x y : Reg} {n : Nat} {c c' : Canvas} (h : drawRows s x y n c = .ok c') :
    (∀ r : Reg, r ≠ vf → c'.v[r] = c.v[r]) ∧ (c'.v[vf] = c.v[vf] ∨ c'.v[vf] = 1) := by
  let P : Canvas → Prop := fun d => (∀ r : Reg, r ≠ vf → d.v[r] = c.v[r]) ∧ (d.v[vf] = c.v[vf] ∨ d.v[vf] = 1)
  have hpix : ∀ cy (d : Canvas) cx d', drawPixel s.cfg.wrapCmp x y cy cx d = .ok d' → P d → P d' := by
    intro cy d cx d' hd hp
    obtain ⟨hk, _, hv⟩ := drawPixel_ok hd
    by_cases hc : d.disp[cellOf s.cfg.wrapCmp d.v[x].toNat d.v[y].toNat cx cy] = true
    · rw [if_pos hc] at hv
      refine ⟨fun r hr => ?_, Or.inr (by simp [hv])⟩
      have hne : vf.val ≠ r.val := fun hc => hr (Fin.ext hc.symm)
      rw [← hp.1 r hr, hv]
      simp only [Fin.getElem_fin]
      exact Vector.getElem_set_ne _ _ hne
    · rw [if_neg hc] at hv
      simpa [P, hv] using hp
  have hrow : ∀ (d : Canvas) cy d',
      (match s.memRead (s.ea cy) with
        | .ok spr => drawRow s.cfg.wrapCmp x y cy spr d
        | .error r => .error r) = .ok d' → P d → P d' := by
    intro d cy d' hd hp
    split at hd
    · refine foldlM_keeps (P := P) ?_ _ _ _ hd hp
      intro e cx e' he hpe
      split at he
      · exact hpix cy e cx e' he hpe
      · exact Except.ok.inj he ▸ hpe
    · simp at hd
  exact foldlM_keeps (P := P) hrow _ _ _ h ⟨fun _ _ => rfl, Or.inl rfl⟩

end Sys2Proof.Machine
end

