-- ==== Sys2Proof/Laws/PerInstr.lean ====
section
/-! SUPPORT. One fact per instruction, as syntax: its word bears the fixed bits of its row of the opcode table. -/

namespace Sys2Proof.Laws.FixedBits

/-- The word of `i` is selected by the row with the given name, fixed bits and mask (spec/30_encoding.md R96). -/
def rowHolds (i : Instr) (fixed mask : Word) : Prop :=
  encode i &&& mask = fixed ∧ opcodeTable.any (fun r => r.fixed == fixed && r.mask == mask) = true

/-- The fixed bits and the mask of an instruction's row (spec/30_encoding.md R96). -/
def rowBits : Instr → Word × Word
  | .cls => (0x00E0, 0xFFFF)
  | .ret => (0x00EE, 0xFFFF)
  | .jpAddr _ => (0x1000, 0xF000)
  | .callAddr _ => (0x2000, 0xF000)
  | .seVxKk _ _ => (0x3000, 0xF000)
  | .sneVxKk _ _ => (0x4000, 0xF000)
  | .seVxVy _ _ => (0x5000, 0xF00F)
  | .ldVxKk _ _ => (0x6000, 0xF000)
  | .addVxKk _ _ => (0x7000, 0xF000)
  | .ldVxVy _ _ => (0x8000, 0xF00F)
  | .orVxVy _ _ => (0x8001, 0xF00F)
  | .andVxVy _ _ => (0x8002, 0xF00F)
  | .xorVxVy _ _ => (0x8003, 0xF00F)
  | .addVxVy _ _ => (0x8004, 0xF00F)
  | .subVxVy _ _ => (0x8005, 0xF00F)
  | .shrVx _ _ => (0x8006, 0xF00F)
  | .subnVxVy _ _ => (0x8007, 0xF00F)
  | .shlVx _ _ => (0x800E, 0xF00F)
  | .sneVxVy _ _ => (0x9000, 0xF00F)
  | .ldIAddr _ => (0xA000, 0xF000)
  | .jpV0Addr _ => (0xB000, 0xF000)
  | .rndVxKk _ _ => (0xC000, 0xF000)
  | .drwVxVyN _ _ _ => (0xD000, 0xF000)
  | .skpVx _ => (0xE09E, 0xF0FF)
  | .sknpVx _ => (0xE0A1, 0xF0FF)
  | .ldVxDt _ => (0xF007, 0xF0FF)
  | .ldVxK _ => (0xF00A, 0xF0FF)
  | .ldDtVx _ => (0xF015, 0xF0FF)
  | .ldStVx _ => (0xF018, 0xF0FF)
  | .addIVx _ => (0xF01E, 0xF0FF)
  | .ldFVx _ => (0xF029, 0xF0FF)
  | .ldBVx _ => (0xF033, 0xF0FF)
  | .ldMemVx _ => (0xF055, 0xF0FF)
  | .ldVxMem _ => (0xF065, 0xF0FF)

/-- The family's statement: the word of the instruction has the fixed bits of the instruction's row. -/
def Statement (i : Instr) : Prop := rowHolds i (rowBits i).1 (rowBits i).2

theorem cls : Statement (.cls) := ⟨by decide, rfl⟩
theorem ret : Statement (.ret) := ⟨by decide, rfl⟩
theorem jpAddr (addr : BitVec 12) : Statement (.jpAddr addr) := 
  ⟨encodeNNN_and_op 0x1 addr, rfl⟩
theorem callAddr (addr : BitVec 12) : Statement (.callAddr addr) := 
  ⟨encodeNNN_and_op 0x2 addr, rfl⟩
theorem seVxKk (x : Reg) (kk : Byte) : Statement (.seVxKk x kk) := 
  ⟨encodeXKK_and_op 0x3 x kk, rfl⟩
theorem sneVxKk (x : Reg) (kk : Byte) : Statement (.sneVxKk x kk) := 
  ⟨encodeXKK_and_op 0x4 x kk, rfl⟩
theorem seVxVy (x : Reg) (y : Reg) : Statement (.seVxVy x y) := 
  ⟨encodeXYN_and_op_n 0x5 x y 0x0, rfl⟩
theorem ldVxKk (x : Reg) (kk : Byte) : Statement (.ldVxKk x kk) := 
  ⟨encodeXKK_and_op 0x6 x kk, rfl⟩
theorem addVxKk (x : Reg) (kk : Byte) : Statement (.addVxKk x kk) := 
  ⟨encodeXKK_and_op 0x7 x kk, rfl⟩
theorem ldVxVy (x : Reg) (y : Reg) : Statement (.ldVxVy x y) := 
  ⟨encodeXYN_and_op_n 0x8 x y 0x0, rfl⟩
theorem orVxVy (x : Reg) (y : Reg) : Statement (.orVxVy x y) := 
  ⟨encodeXYN_and_op_n 0x8 x y 0x1, rfl⟩
theorem andVxVy (x : Reg) (y : Reg) : Statement (.andVxVy x y) := 
  ⟨encodeXYN_and_op_n 0x8 x y 0x2, rfl⟩
theorem xorVxVy (x : Reg) (y : Reg) : Statement (.xorVxVy x y) := 
  ⟨encodeXYN_and_op_n 0x8 x y 0x3, rfl⟩
theorem addVxVy (x : Reg) (y : Reg) : Statement (.addVxVy x y) := 
  ⟨encodeXYN_and_op_n 0x8 x y 0x4, rfl⟩
theorem subVxVy (x : Reg) (y : Reg) : Statement (.subVxVy x y) := 
  ⟨encodeXYN_and_op_n 0x8 x y 0x5, rfl⟩
theorem shrVx (x : Reg) (y : Reg) : Statement (.shrVx x y) := 
  ⟨encodeXYN_and_op_n 0x8 x y 0x6, rfl⟩
theorem subnVxVy (x : Reg) (y : Reg) : Statement (.subnVxVy x y) := 
  ⟨encodeXYN_and_op_n 0x8 x y 0x7, rfl⟩
theorem shlVx (x : Reg) (y : Reg) : Statement (.shlVx x y) := 
  ⟨encodeXYN_and_op_n 0x8 x y 0xE, rfl⟩
theorem sneVxVy (x : Reg) (y : Reg) : Statement (.sneVxVy x y) := 
  ⟨encodeXYN_and_op_n 0x9 x y 0x0, rfl⟩
theorem ldIAddr (addr : BitVec 12) : Statement (.ldIAddr addr) := 
  ⟨encodeNNN_and_op 0xA addr, rfl⟩
theorem jpV0Addr (addr : BitVec 12) : Statement (.jpV0Addr addr) := 
  ⟨encodeNNN_and_op 0xB addr, rfl⟩
theorem rndVxKk (x : Reg) (kk : Byte) : Statement (.rndVxKk x kk) := 
  ⟨encodeXKK_and_op 0xC x kk, rfl⟩
theorem drwVxVyN (x : Reg) (y : Reg) (n : BitVec 4) : Statement (.drwVxVyN x y n) := 
  ⟨encodeXYN_and_op 0xD x y n, rfl⟩
theorem skpVx (x : Reg) : Statement (.skpVx x) := 
  ⟨encodeXKK_and_op_kk 0xE x 0x9E, rfl⟩
theorem sknpVx (x : Reg) : Statement (.sknpVx x) := 
  ⟨encodeXKK_and_op_kk 0xE x 0xA1, rfl⟩
theorem ldVxDt (x : Reg) : Statement (.ldVxDt x) := 
  ⟨encodeXKK_and_op_kk 0xF x 0x07, rfl⟩
theorem ldVxK (x : Reg) : Statement (.ldVxK x) := 
  ⟨encodeXKK_and_op_kk 0xF x 0x0A, rfl⟩
theorem ldDtVx (x : Reg) : Statement (.ldDtVx x) := 
  ⟨encodeXKK_and_op_kk 0xF x 0x15, rfl⟩
theorem ldStVx (x : Reg) : Statement (.ldStVx x) := 
  ⟨encodeXKK_and_op_kk 0xF x 0x18, rfl⟩
theorem addIVx (x : Reg) : Statement (.addIVx x) := 
  ⟨encodeXKK_and_op_kk 0xF x 0x1E, rfl⟩
theorem ldFVx (x : Reg) : Statement (.ldFVx x) := 
  ⟨encodeXKK_and_op_kk 0xF x 0x29, rfl⟩
theorem ldBVx (x : Reg) : Statement (.ldBVx x) := 
  ⟨encodeXKK_and_op_kk 0xF x 0x33, rfl⟩
theorem ldMemVx (x : Reg) : Statement (.ldMemVx x) := 
  ⟨encodeXKK_and_op_kk 0xF x 0x55, rfl⟩
theorem ldVxMem (x : Reg) : Statement (.ldVxMem x) := 
  ⟨encodeXKK_and_op_kk 0xF x 0x65, rfl⟩

end Sys2Proof.Laws.FixedBits
end

