-- ==== Sys2Proof/Laws/Sprite.lean ====
section
/-! SUPPORT. The sprite engine pixel by pixel: the rows of a readable sprite are one fold over its set bits, and what
that fold does before and after the first collision. -/

namespace Sys2Proof.Machine

/-- The set bits drawn one after the other. -/
def drawList (cmp : WrapCmp) (x y : Reg) (ps : List (Nat × Nat)) (c : Canvas) : Except Raised Canvas :=
  ps.foldlM (fun c p => drawPixel cmp x y p.2 p.1 c) c

theorem drawList_cons (cmp : WrapCmp) (x y : Reg) (p : Nat × Nat) (ps : List (Nat × Nat)) (c : Canvas) :
    drawList cmp x y (p :: ps) c = (drawPixel cmp x y p.2 p.1 c).bind (drawList cmp x y ps) := rfl

theorem drawList_append (cmp : WrapCmp) (x y : Reg) (ps qs : List (Nat × Nat)) (c : Canvas) :
    drawList cmp x y (ps ++ qs) c = (drawList cmp x y ps c).bind (drawList cmp x y qs) := by
  simp only [drawList, List.foldlM_append]
  rfl

/-- A row is drawn by its set bits, left to right. -/
theorem drawRow_eq_list (cmp : WrapCmp) (x y : Reg) (cy : Nat) (spr : Byte) (c : Canvas) :
    drawRow cmp x y cy spr c =
      drawList cmp x y
        (((List.range 8).filter fun cx => spr.toNat.testBit (7 - cx)).map fun cx => (cx, cy)) c := by
  have key : ∀ (l : List Nat) (c : Canvas), (∀ cx ∈ l, cx < 8) →
      l.foldlM (fun c cx => if spriteBit spr cx then drawPixel cmp x y cy cx c else .ok c) c =
        drawList cmp x y ((l.filter fun cx => spr.toNat.testBit (7 - cx)).map fun cx => (cx, cy)) c := by
    intro l
    induction l with
    | nil => intro c _; rfl
    | cons cx l ih =>
      intro c hl
      have hb := spriteBit_eq spr (hl cx (by simp))
      have hr := fun c => ih c fun k hk => hl k (by simp [hk])
      rw [List.foldlM_cons, hb]
      cases ht : spr.toNat.testBit (7 - cx)
      · simp only [ht, Bool.false_eq_true, if_false, List.filter_cons]
        exact hr c
      · simp only [ht, if_true, List.filter_cons, List.map_cons, drawList_cons]
        exact congrArg _ (funext hr)
  exact key _ _ fun cx hcx => List.mem_range.1 hcx

theorem State.spritePixels_succ (s : State) (m : Nat) :
    s.spritePixels (m + 1) = s.spritePixels m ++
      ((List.range 8).filter fun cx => (s.byte (s.i.toNat + m)).toNat.testBit (7 - cx)).map fun cx => (cx, m) := by
  simp [State.spritePixels, List.range_succ]

/-- One more row. -/
theorem drawRows_succ (s : State) (x y : Reg) (m : Nat) (c : Canvas) :
    drawRows s x y (m + 1) c = (drawRows s x y m c).bind fun d =>
      match s.memRead (s.ea m) with
      | .ok spr => drawRow s.cfg.wrapCmp x y m spr d
      | .error r => .error r := by
  simp only [drawRows, List.range_succ, List.foldlM_append, List.foldlM_cons, List.foldlM_nil, bind_pure]
  rfl

/-- The rows of a readable sprite are drawn by its set bits in order. -/
theorem drawRows_eq_list (s : State) (x y : Reg) (m : Nat) (c : Canvas) (h : s.rowsReadable m) :
    drawRows s x y m c = drawList s.cfg.wrapCmp x y (s.spritePixels m) c := by
  induction m with
  | zero => rfl
  | succ m ih =>
    have hm : s.i.toNat + m ≤ 0xFFF := by rcases h with h | h <;> omega
    rw [drawRows_succ, ih (Or.inr (by omega)), State.spritePixels_succ, drawList_append]
    congr 1
    funext d
    simp only [State.ea, State.memRead_ok s hm]
    exact drawRow_eq_list _ _ _ _ _ _

/-- A fault in the first `m` rows is the fault of all `n`. -/
theorem drawRows_error_mono (s : State) (x y : Reg) {m n : Nat} (hmn : m ≤ n) {c : Canvas} {r : Raised}
    (h : drawRows s x y m c = .error r) : drawRows s x y n c = .error r := by
  induction n with
  | zero => obtain rfl : m = 0 := by omega
            exact h
  | succ n ih =>
    by_cases hc : m = n + 1
    · exact hc ▸ h
    · rw [drawRows_succ, ih (by omega)]; rfl

/-! ### Before and after the first collision -/

/-- The registers of the canvas while `s` draws: those of `s`, but for `V[0xF]`, which is 0 or 1. -/
def CanvasRegs (s : State) (collided : Bool) (c : Canvas) : Prop :=
  (∀ r : Reg, r ≠ vf → c.v[r] = s.reg r) ∧ c.v[vf] = if collided then 1 else 0

theorem CanvasRegs.origin {s : State} {collided : Bool} {c : Canvas} (h : CanvasRegs s collided c) (r : Reg) :
    c.v[r].toNat = s.originOf r collided := by
  unfold State.originOf
  by_cases hr : r = vf
  · subst hr; rw [h.2]; cases collided <;> rfl
  · rw [h.1 r hr, if_neg hr]

theorem CanvasRegs.start (s : State) : CanvasRegs s false { v := s.v.set vf 0, disp := s.disp } := by
  refine ⟨fun r hr => ?_, by simp⟩
  have hne : vf.val ≠ r.val := fun hc => hr (Fin.ext hc.symm)
  show (s.v.set vf 0)[r.val] = s.v[r.val]
  exact Vector.getElem_set_ne vf.isLt r.isLt hne

theorem CanvasRegs.collide {s : State} {collided : Bool} {c : Canvas} (h : CanvasRegs s collided c)
    (d : Vector Bool 2048) : CanvasRegs s true { v := c.v.set vf 1, disp := d } := by
  refine ⟨fun r hr => ?_, by simp⟩
  have hne : vf.val ≠ r.val := fun hc => hr (Fin.ext hc.symm)
  rw [← h.1 r hr]
  show (c.v.set vf 1)[r.val] = c.v[r.val]
  exact Vector.getElem_set_ne vf.isLt r.isLt hne

/-- One pixel: its cell is toggled and a set cell is a collision, or the cell does not exist. -/
theorem CanvasRegs.pixel {s : State} {collided : Bool} {c : Canvas} (h : CanvasRegs s collided c) (x y : Reg)
    (p : Nat × Nat) :
    (2047 < s.landsIn x y collided p ∧
      drawPixel s.cfg.wrapCmp x y p.2 p.1 c =
        .error { cause := .displayOutOfRange, info := s.landsIn x y collided p }) ∨
    ∃ hk : s.landsIn x y collided p < 2048,
      ∃ d, drawPixel s.cfg.wrapCmp x y p.2 p.1 c = .ok d ∧
        d.disp = c.disp.set (s.landsIn x y collided p) (!c.disp[s.landsIn x y collided p]) ∧
        CanvasRegs s (collided || c.disp[s.landsIn x y collided p]) d := by
  have hcell : cellOf s.cfg.wrapCmp c.v[x].toNat c.v[y].toNat p.1 p.2 = s.landsIn x y collided p := by
    rw [h.origin x, h.origin y]; rfl
  unfold drawPixel
  simp only [hcell]
  by_cases hk : s.landsIn x y collided p < 2048
  · refine .inr ⟨hk, _, by rw [dif_pos hk], rfl, ?_⟩
    cases hl : c.disp[s.landsIn x y collided p]
    · simpa [hl, CanvasRegs] using h
    · simpa [hl, flagByte] using h.collide _
  · exact .inl ⟨by omega, by rw [dif_neg hk]⟩

theorem toggle_getElem? (d : Vector Bool 2048) {k : Nat} (hk : k < 2048) (j : Nat) :
    (d.set k (!d[k]))[j]? = some true ↔ (d[j]? = some true ↔ j ≠ k) ∧ j < 2048 := by
  by_cases hj : j < 2048
  · rw [Vector.getElem?_eq_getElem hj, Vector.getElem?_eq_getElem hj, Vector.getElem_set]
    by_cases h : k = j
    · subst h; cases d[k] <;> simp [hk]
    · simp [h, Ne.symm h, hj]
  · simp [hj]

/-- After a collision every further pixel toggles its cell, whatever it holds. -/
theorem drawList_collided {s : State} {x y : Reg} :
    ∀ (ps : List (Nat × Nat)) (c : Canvas), CanvasRegs s true c → (∀ q ∈ ps, s.landsIn x y true q ≤ 2047) →
      ∃ d, drawList s.cfg.wrapCmp x y ps c = .ok d ∧ CanvasRegs s true d ∧
        ∀ k, k < 2048 →
          (d.disp[k]? = some true ↔ (c.disp[k]? = some true ↔ (ps.map (s.landsIn x y true)).count k % 2 = 0))
  | [], c, hc, _ => ⟨c, rfl, hc, by simp⟩
  | p :: ps, c, hc, hf => by
    rcases hc.pixel x y p with ⟨hk, _⟩ | ⟨hk, d, hd, hdisp, hreg⟩
    · have := hf p (by simp); omega
    · obtain ⟨e, he, hre, hcell⟩ := drawList_collided ps d (by simpa using hreg) fun q hq => hf q (by simp [hq])
      refine ⟨e, by rw [drawList_cons, hd]; exact he, hre, fun k hk' => ?_⟩
      rw [hcell k hk', hdisp, toggle_getElem? _ hk, List.map_cons, List.count_cons]
      by_cases hkk : k = s.landsIn x y true p
      · subst hkk
        simp only [ne_eq, not_true_eq_false, iff_false, hk', and_true, beq_self_eq_true, if_true]
        have : ∀ n : Nat, (n + 1) % 2 = 0 ↔ ¬ n % 2 = 0 := by omega
        rw [this]; tauto
      · have : (s.landsIn x y true p == k) = false := by simpa using Ne.symm hkk
        simp [hkk, hk', this]

/-- While no pixel meets a set cell, every pixel sets its cell and `V[0xF]` stays 0. -/
theorem drawList_clean {s : State} {x y : Reg} :
    ∀ (ps : List (Nat × Nat)) (c : Canvas), CanvasRegs s false c →
      (∀ q ∈ ps, s.landsIn x y false q ≤ 2047 ∧ ¬ c.disp[s.landsIn x y false q]? = some true) →
      (ps.map (s.landsIn x y false)).Nodup →
      ∃ d, drawList s.cfg.wrapCmp x y ps c = .ok d ∧ CanvasRegs s false d ∧
        ∀ k, k < 2048 → (d.disp[k]? = some true ↔ (c.disp[k]? = some true ∨ k ∈ ps.map (s.landsIn x y false)))
  | [], c, hc, _, _ => ⟨c, rfl, hc, by simp⟩
  | p :: ps, c, hc, hf, hn => by
    rw [List.map_cons, List.nodup_cons] at hn
    rcases hc.pixel x y p with ⟨hk, _⟩ | ⟨hk, d, hd, hdisp, hreg⟩
    · have := (hf p (by simp)).1; omega
    · have hoff : c.disp[s.landsIn x y false p] = false := by
        have := (hf p (by simp)).2
        rw [Vector.getElem?_eq_getElem hk] at this
        simpa using this
      have hd' : ∀ k, d.disp[k]? = some true ↔ (c.disp[k]? = some true ↔ k ≠ s.landsIn x y false p) ∧ k < 2048 := by
        intro k; rw [hdisp]; exact toggle_getElem? _ hk k
      obtain ⟨e, he, hre, hcell⟩ := drawList_clean ps d (by simpa [hoff] using hreg)
        (fun q hq => by
          have h1 := hf q (by simp [hq])
          refine ⟨h1.1, fun h2 => h1.2 (((hd' _).1 h2).1.2 fun hc => ?_)⟩
          exact hn.1 (hc ▸ List.mem_map.2 ⟨q, hq, rfl⟩))
        hn.2
      refine ⟨e, by rw [drawList_cons, hd]; exact he, hre, fun k hk' => ?_⟩
      rw [hcell k hk', hd' k, List.map_cons, List.mem_cons]
      by_cases hkk : k = s.landsIn x y false p
      · subst hkk; simp [hoff, hk']
      · simp [hkk, hk']

/-! ### Sprites and their cells -/

/-- The set bits of a sprite as a list and as a predicate. -/
theorem State.mem_spritePixels (s : State) (n cx cy : Nat) : (cx, cy) ∈ s.spritePixels n ↔ s.spriteAt n cx cy := by
  simp [State.spritePixels, State.spriteAt]
  tauto

theorem State.spritePixels_nodup (s : State) (n : Nat) : (s.spritePixels n).Nodup := by
  induction n with
  | zero => simp [State.spritePixels]
  | succ n ih =>
    rw [State.spritePixels_succ, List.nodup_append]
    refine ⟨ih, (List.nodup_range.filter _).map fun a b h => by simpa using h, ?_⟩
    rintro ⟨cx, cy⟩ h1 ⟨cx', cy'⟩ h2 heq
    have := ((s.mem_spritePixels n cx cy).1 h1).2.1
    simp only [List.mem_map, List.mem_filter, Prod.mk.injEq] at h2 heq
    obtain ⟨_, _, _, rfl⟩ := h2
    omega

theorem State.originOf_lt (s : State) (r : Reg) (c : Bool) : s.originOf r c < 256 := by
  unfold State.originOf
  have := (s.reg r).isLt
  cases c <;> split <;> simp <;> omega

/-- `V[0xF]` apart, the origin does not move. -/
theorem State.originOf_fixed (s : State) {r : Reg} (h : r ≠ vf) (c : Bool) : s.originOf r c = (s.reg r).toNat := by
  simp [State.originOf, h]

end Sys2Proof.Machine
end

