-- ==== Sys2Proof/Laws/Step.lean ====
section
/-! SUPPORT. What a step and an event can do, said once. -/

namespace Sys2Proof.Machine

/-- The three ways a fetch can end (spec/50_interfaces.md R232). -/
theorem State.fetch_eq (s : State) :
    (0xFFE < s.pc.toNat ∧
      s.fetch = .error { s with err := ⟨true, 2, 0, s.pc, 0⟩ }) ∨
    (s.pc.toNat ≤ 0xFFE ∧ (∃ e, decodeWord s.opcodeAt = .error e) ∧
      s.fetch = .error { s with pc := s.pc + 2, err := ⟨true, 1, s.opcodeAt, s.pc, 0⟩ }) ∨
    (s.pc.toNat ≤ 0xFFE ∧ ∃ i, decodeWord s.opcodeAt = .ok i ∧ s.fetch = .ok (i, { s with pc := s.pc + 2 })) := by
  unfold State.fetch
  by_cases h : s.pc.toNat > 0xFFE
  · exact .inl ⟨h, by rw [if_pos h]; rfl⟩
  · rw [if_neg h]
    cases hd : decodeWord s.opcodeAt with
    | error e => exact .inr (.inl ⟨by omega, ⟨e, rfl⟩, rfl⟩)
    | ok i => exact .inr (.inr ⟨by omega, i, rfl, rfl⟩)

theorem step_stopped {s : State} (h : s.status = .stopped) : step s = .next s := by simp [step, h]

theorem step_blocked {s : State} (h : s.status = .blocked) : step s = .next s := by simp [step, h]

theorem step_fetched {s : State} (h : s.status = .running) {i : Instr} {t : State} (hf : s.fetch = .ok (i, t)) :
    step s = exec i t := by simp [step, h, hf]

theorem step_faulted {s : State} (h : s.status = .running) {t : State} (hf : s.fetch = .error t) :
    step s = .next t := by simp [step, h, hf]

/-- Everything a step can do: nothing, a fault of the fetch, a fault of the decoder, or the handler of the fetched
instruction. -/
theorem step_cases {s t : State} (h : step s = .next t) :
    (s.status ≠ .running ∧ t = s) ∨
    (s.status = .running ∧ 0xFFE < s.pc.toNat ∧ t = { s with err := ⟨true, 2, 0, s.pc, 0⟩ }) ∨
    (s.status = .running ∧ s.pc.toNat ≤ 0xFFE ∧ (∃ e, decodeWord s.opcodeAt = .error e) ∧
      t = { s with pc := s.pc + 2, err := ⟨true, 1, s.opcodeAt, s.pc, 0⟩ }) ∨
    (s.status = .running ∧ s.pc.toNat ≤ 0xFFE ∧ ∃ i, decodeWord s.opcodeAt = .ok i ∧
      exec i { s with pc := s.pc + 2 } = .next t) := by
  cases hs : s.status with
  | stopped => rw [step_stopped hs] at h; exact .inl ⟨by simp, (Host.Outcome.next.inj h).symm⟩
  | blocked => rw [step_blocked hs] at h; exact .inl ⟨by simp, (Host.Outcome.next.inj h).symm⟩
  | running =>
    rcases s.fetch_eq with ⟨h1, hf⟩ | ⟨h1, he, hf⟩ | ⟨h1, i, hd, hf⟩
    · rw [step_faulted hs hf] at h
      exact .inr (.inl ⟨rfl, h1, (Host.Outcome.next.inj h).symm⟩)
    · rw [step_faulted hs hf] at h
      exact .inr (.inr (.inl ⟨rfl, h1, he, (Host.Outcome.next.inj h).symm⟩))
    · rw [step_fetched hs hf] at h
      exact .inr (.inr (.inr ⟨rfl, h1, i, hd, h⟩))

/-- The running status, unfolded (spec/50_interfaces.md R231). -/
theorem State.status_running_iff (s : State) :
    s.status = .running ↔ s.err.valid = false ∧ (s.cfg.keyboardWired = false ∨ s.waitKey = false) := by
  unfold State.status
  cases s.err.valid <;> cases s.cfg.keyboardWired <;> cases s.waitKey <;> simp

/-- The stopped status, unfolded (spec/50_interfaces.md R231). -/
theorem State.status_stopped_iff (s : State) : s.status = .stopped ↔ s.err.valid = true := by
  unfold State.status
  cases s.err.valid <;> cases s.cfg.keyboardWired <;> cases s.waitKey <;> simp

/-- A core prepared by `withFetchWord` runs. -/
theorem State.withFetchWord_running (s : State) (nbits w : Nat) : (s.withFetchWord nbits w).status = .running := by
  rw [State.status_running_iff]
  constructor
  · show (if s.err.valid then ErrRecord.none else s.err).valid = false
    cases h : s.err.valid
    · simpa using h
    · rfl
  · show s.cfg.keyboardWired = false ∨ (s.waitKey && !s.cfg.keyboardWired) = false
    cases s.cfg.keyboardWired <;> simp

/-- The word that `withFetchWord` places is the word the next step fetches. -/
theorem State.withFetchWord_opcodeAt (s : State) (w : Word) : (s.withFetchWord 16 w.toNat).opcodeAt = w := by
  have hw : BitVec.ofNat 16 (w.toNat % 2 ^ 16) = w := by
    apply BitVec.eq_of_toNat_eq
    simpa using w.isLt
  unfold State.withFetchWord State.opcodeAt
  simp only [State.storeBytes_pc, State.byte_storeBytes, List.length_cons, List.length_nil, hw]
  rw [dif_pos (by omega), dif_pos (by omega)]
  simp

/-- The prepared core fetches in range. -/
theorem State.withFetchWord_pc (s : State) (nbits w : Nat) : (s.withFetchWord nbits w).pc.toNat ≤ 0xFFE := by
  show (if s.pc.toNat > 0xFFE then (0x200 : Word) else s.pc).toNat ≤ 0xFFE
  by_cases h : s.pc.toNat > 0xFFE
  · rw [if_pos h]; decide
  · rw [if_neg h]; omega

end Sys2Proof.Machine
end

