-- ==== Sys2Proof/Tests/Slice0.lean ====
section
/-! SUPPORT. Small tests of one step each, their expected results from spec/95_test_vectors.md (the vector stands in the
name or the comment), decoded words written out from the encodings of spec/30_encoding.md, and the witnesses that the
hypotheses of the statements can be met. -/

namespace Sys2Proof.Tests

set_option Elab.async false

open Sys2Proof Sys2Proof.Machine

/-- The reset state changed by `f`, with the word `w` where the next step fetches. -/
def placed (w : Nat) (f : State → State) : State := (f State.reset).withFetchWord 16 w

/-- The answer is a next state with the property `p`. -/
def answers (o : Host.Outcome State Fault Refusal) (p : State → Bool) : Bool :=
  match o with
  | .next t => p t
  | .fault _ => false
  | .refused _ => false

/-- One step of `placed` answers a next state with the property `p`. -/
def after (w : Nat) (f : State → State) (p : State → Bool) : Bool := answers (step (placed w f)) p

/-- A keyboard wired to the machine. -/
def wired (s : State) : State := { s with cfg := { s.cfg with keyboardWired := true } }

/-- Cells of the display set beforehand. -/
def lightUp (ks : List Nat) (s : State) : State :=
  { s with disp := ks.foldl (fun d k => d.setIfInBounds k true) s.disp }

/-- A core that has faulted. -/
def stopped : State := { State.reset with err := { ErrRecord.none with valid := true, code := 1 } }

/-- A core with a keyboard, blocked in a key wait. -/
def waiting (s : State) : State := { wired s with waitKey := true }

/-- The font's 0 at `I`, `V[0]` and `V[1]` its place, the cells `ks` lit. -/
def drawing (ks : List Nat) (ox oy : Byte) : State := lightUp ks ((State.reset.setReg 0 ox).setReg 1 oy)

/-- Exactly the cells `ks` of the first `n` cells are set. -/
def showsIn (n : Nat) (ks : List Nat) (s : State) : Bool :=
  (List.range n).all fun k => (s.disp[k]? == some true) == ks.contains k

/-- The core has faulted with this code, opcode and information at 0x200, `PC` past the word. -/
def stoppedWith (code : BitVec 4) (opcode : Word) (info : BitVec 17) (s : State) : Bool :=
  s.err == { valid := true, code := code, opcode := opcode, addr := 0x200, info := info } && s.pc == 0x202

/-! ### Well-formedness: an ill-formed term for each check -/

theorem test_image_too_large_refused : imageWellFormed (List.replicate 3585 0) = false := by decide +kernel
theorem test_image_largest_accepted : imageWellFormed (List.replicate 3584 0) = true := by decide +kernel
theorem test_key_0x10_refused : keyWellFormed 0x10 = false := by decide
theorem test_key_0x0F_accepted : keyWellFormed 0x0F = true := by decide

/-! ### Decoding: one word for every row, written out bit by bit from spec/30_encoding.md R91, R94, R96 -/

theorem test_decode_cls : decodeWord 0b0000000011100000 = .ok (.cls) := by decide +kernel
theorem test_decode_ret : decodeWord 0b0000000011101110 = .ok (.ret) := by decide +kernel
theorem test_decode_jpAddr : decodeWord 0b0001101010111100 = .ok (.jpAddr 0xABC) := by decide +kernel
theorem test_decode_callAddr : decodeWord 0b0010001100000001 = .ok (.callAddr 0x301) := by decide +kernel
theorem test_decode_seVxKk : decodeWord 0b0011000101000010 = .ok (.seVxKk 1 0x42) := by decide +kernel
theorem test_decode_sneVxKk : decodeWord 0b0100111010000001 = .ok (.sneVxKk 14 0x81) := by decide +kernel
theorem test_decode_seVxVy : decodeWord 0b0101000100100000 = .ok (.seVxVy 1 2) := by decide +kernel
theorem test_decode_ldVxKk : decodeWord 0b0110101001111111 = .ok (.ldVxKk 10 0x7F) := by decide +kernel
theorem test_decode_addVxKk : decodeWord 0b0111000011111111 = .ok (.addVxKk 0 0xFF) := by decide +kernel
theorem test_decode_ldVxVy : decodeWord 0b1000000100100000 = .ok (.ldVxVy 1 2) := by decide +kernel
theorem test_decode_orVxVy : decodeWord 0b1000001101000001 = .ok (.orVxVy 3 4) := by decide +kernel
theorem test_decode_andVxVy : decodeWord 0b1000010101100010 = .ok (.andVxVy 5 6) := by decide +kernel
theorem test_decode_xorVxVy : decodeWord 0b1000011110000011 = .ok (.xorVxVy 7 8) := by decide +kernel
theorem test_decode_addVxVy : decodeWord 0b1000101010110100 = .ok (.addVxVy 10 11) := by decide +kernel
theorem test_decode_subVxVy : decodeWord 0b1000111100010101 = .ok (.subVxVy 15 1) := by decide +kernel
theorem test_decode_shrVx : decodeWord 0b1000000100100110 = .ok (.shrVx 1 2) := by decide +kernel
theorem test_decode_subnVxVy : decodeWord 0b1000000111110111 = .ok (.subnVxVy 1 15) := by decide +kernel
theorem test_decode_shlVx : decodeWord 0b1000110011011110 = .ok (.shlVx 12 13) := by decide +kernel
theorem test_decode_sneVxVy : decodeWord 0b1001000100100000 = .ok (.sneVxVy 1 2) := by decide +kernel
theorem test_decode_ldIAddr : decodeWord 0b1010100000000001 = .ok (.ldIAddr 0x801) := by decide +kernel
theorem test_decode_jpV0Addr : decodeWord 0b1011001100000000 = .ok (.jpV0Addr 0x300) := by decide +kernel
theorem test_decode_rndVxKk : decodeWord 0b1100000100001111 = .ok (.rndVxKk 1 0x0F) := by decide +kernel
theorem test_decode_drwVxVyN : decodeWord 0b1101000000010101 = .ok (.drwVxVyN 0 1 5) := by decide +kernel
theorem test_decode_skpVx : decodeWord 0b1110000110011110 = .ok (.skpVx 1) := by decide +kernel
theorem test_decode_sknpVx : decodeWord 0b1110001010100001 = .ok (.sknpVx 2) := by decide +kernel
theorem test_decode_ldVxDt : decodeWord 0b1111001000000111 = .ok (.ldVxDt 2) := by decide +kernel
theorem test_decode_ldVxK : decodeWord 0b1111010000001010 = .ok (.ldVxK 4) := by decide +kernel
theorem test_decode_ldDtVx : decodeWord 0b1111001000010101 = .ok (.ldDtVx 2) := by decide +kernel
theorem test_decode_ldStVx : decodeWord 0b1111001100011000 = .ok (.ldStVx 3) := by decide +kernel
theorem test_decode_addIVx : decodeWord 0b1111001100011110 = .ok (.addIVx 3) := by decide +kernel
theorem test_decode_ldFVx : decodeWord 0b1111101000101001 = .ok (.ldFVx 10) := by decide +kernel
theorem test_decode_ldBVx : decodeWord 0b1111000100110011 = .ok (.ldBVx 1) := by decide +kernel
theorem test_decode_ldMemVx : decodeWord 0b1111111101010101 = .ok (.ldMemVx 15) := by decide +kernel
theorem test_decode_ldVxMem : decodeWord 0b1111001001100101 = .ok (.ldVxMem 2) := by decide +kernel

/-- spec/95_test_vectors.md 2.6: words that are no instruction. -/
theorem test_decode_unknown :
    [0x0000, 0x00E1, 0x00EF, 0x01E0, 0x0FFF, 0x5121, 0x9121, 0x8128, 0x812F, 0xE19F, 0xE100, 0xF100, 0xF166, 0xF1FF,
      0xFFFF].all (fun w => decodeTableWord 16 w == none) = true := by decide +kernel

theorem test_decode_bytes_big_endian : decode [0x61, 0x23, 0x99] = .ok (.ldVxKk 1 0x23, [0x99]) := by decide +kernel
theorem test_decode_truncated : decode [0x61] = .error .truncated := by decide +kernel
theorem test_encode_bytes : encodeBytes (.drwVxVyN 0 1 5) = [0xD0, 0x15] := by decide +kernel

/-! ### Control transfer (spec/95_test_vectors.md 2.1) -/

theorem test_2_1_1_jp :
    after 0x1ABC (fun s => s) (fun t => t.pc == 0xABC) = true := by decide +kernel
theorem test_2_1_5_call_sixteenth :
    after 0x2300 (fun s => { s with sp := 15 }) (fun t => t.stack[15] == 0x202 && t.sp == 16 && t.pc == 0x300) = true := by decide +kernel
theorem test_2_1_6_call_overflow :
    after 0x2300 (fun s => { s with sp := 16 }) (fun t => stoppedWith 4 0x2300 0 t && t.sp == 16 && t.stack == Vector.replicate 16 0) = true := by decide +kernel
theorem test_2_1_8_ret_from_full :
    after 0x00EE (fun s => { s with sp := 16, stack := s.stack.set 15 0x0ABC }) (fun t => t.sp == 15 && t.pc == 0xABC && t.stack[15] == 0x0ABC) = true := by decide +kernel
theorem test_2_1_9_ret_underflow :
    after 0x00EE (fun s => s) (fun t => stoppedWith 5 0x00EE 0 t && t.sp == 0) = true := by decide +kernel
theorem test_2_1_10_se_kk_taken :
    after 0x3142 (fun s => s.setReg 1 0x42) (fun t => t.pc == 0x204) = true := by decide +kernel
theorem test_2_1_11_se_kk_not_taken :
    after 0x3142 (fun s => s.setReg 1 0x43) (fun t => t.pc == 0x202) = true := by decide +kernel
theorem test_2_1_12_sne_kk_equal :
    after 0x4142 (fun s => s.setReg 1 0x42) (fun t => t.pc == 0x202) = true := by decide +kernel
theorem test_2_1_13_sne_kk_taken :
    after 0x4142 (fun s => s.setReg 1 0x43) (fun t => t.pc == 0x204) = true := by decide +kernel
theorem test_2_1_14_se_vy_taken :
    after 0x5120 (fun s => (s.setReg 1 7).setReg 2 7) (fun t => t.pc == 0x204) = true := by decide +kernel
theorem test_2_1_15_se_vy_not_taken :
    after 0x5120 (fun s => (s.setReg 1 7).setReg 2 8) (fun t => t.pc == 0x202) = true := by decide +kernel
theorem test_2_1_18_sne_vy_taken :
    after 0x9120 (fun s => (s.setReg 1 7).setReg 2 8) (fun t => t.pc == 0x204) = true := by decide +kernel
theorem test_2_1_19_sne_vf_vf :
    after 0x9FF0 (fun s => s.setReg 15 9) (fun t => t.pc == 0x202 && t.reg 15 == 9) = true := by decide +kernel
theorem test_2_1_20_jp_v0 :
    after 0xB300 (fun s => s.setReg 0 0x10) (fun t => t.pc == 0x310) = true := by decide +kernel
theorem test_2_1_21_jp_v0_no_wrap :
    after 0xBFFF (fun s => s.setReg 0 0xFF) (fun t => t.pc == 0x10FE) = true := by decide +kernel

/-! ### Register load, arithmetic, logic, random (spec/95_test_vectors.md 2.2) -/

theorem test_2_2_1_ld_kk :
    after 0x6A7F (fun s => s) (fun t => t.reg 10 == 0x7F && t.pc == 0x202) = true := by decide +kernel
theorem test_2_2_4_add_kk_wraps :
    after 0x7001 (fun s => s.setReg 0 0xFF) (fun t => t.reg 0 == 0 && t.reg 15 == 0) = true := by decide +kernel
theorem test_2_2_7_ld_vy :
    after 0x8120 (fun s => (s.setReg 1 1).setReg 2 0x7E) (fun t => t.reg 1 == 0x7E && t.reg 2 == 0x7E) = true := by decide +kernel
theorem test_2_2_8_or :
    after 0x8121 (fun s => (s.setReg 1 0xF0).setReg 2 0x3C) (fun t => t.reg 1 == 0xFC && t.reg 15 == 0) = true := by decide +kernel
theorem test_2_2_9_and :
    after 0x8122 (fun s => (s.setReg 1 0xF0).setReg 2 0x3C) (fun t => t.reg 1 == 0x30) = true := by decide +kernel
theorem test_2_2_10_xor :
    after 0x8123 (fun s => (s.setReg 1 0xF0).setReg 2 0x3C) (fun t => t.reg 1 == 0xCC) = true := by decide +kernel
theorem test_2_2_12_add_carry :
    after 0x8124 (fun s => (s.setReg 1 0xC8).setReg 2 0x64) (fun t => t.reg 1 == 0x2C && t.reg 15 == 1) = true := by decide +kernel
theorem test_2_2_17_add_to_vf :
    after 0x8F14 (fun s => (s.setReg 15 0xF0).setReg 1 0x20) (fun t => t.reg 15 == 0x10) = true := by decide +kernel
theorem test_2_2_25_sub_to_vf :
    after 0x8F15 (fun s => (s.setReg 15 0x0A).setReg 1 3) (fun t => t.reg 15 == 0xFE) = true := by decide +kernel
theorem test_2_2_27_sub_vf :
    after 0x81F5 (fun s => (s.setReg 1 0x0A).setReg 15 3) (fun t => t.reg 1 == 9 && t.reg 15 == 1) = true := by decide +kernel
theorem test_2_2_33_shr_ignores_y :
    after 0x8126 (fun s => (s.setReg 1 5).setReg 2 0xAA) (fun t => t.reg 1 == 2 && t.reg 2 == 0xAA && t.reg 15 == 1) = true := by decide +kernel
theorem test_2_2_35_shr_vf :
    after 0x8F06 (fun s => s.setReg 15 0xFE) (fun t => t.reg 15 == 0) = true := by decide +kernel
theorem test_2_2_37_subn_borrow :
    after 0x8127 (fun s => ((s.setReg 1 0x0A).setReg 2 3).setReg 15 1) (fun t => t.reg 1 == 0xF9 && t.reg 15 == 0) = true := by decide +kernel
theorem test_2_2_41_subn_vf :
    after 0x81F7 (fun s => (s.setReg 1 3).setReg 15 0x0A) (fun t => t.reg 1 == 0xFE && t.reg 15 == 1) = true := by decide +kernel
theorem test_2_2_43_shl :
    after 0x810E (fun s => s.setReg 1 0x81) (fun t => t.reg 1 == 2 && t.reg 15 == 1) = true := by decide +kernel
theorem test_2_2_47_shl_vf :
    after 0x8F0E (fun s => s.setReg 15 0x80) (fun t => t.reg 15 == 2) = true := by decide +kernel
theorem test_rnd_takes_one_draw : after 0xC100 (fun s => s) (fun t => t.draws == 1 && t.pc == 0x202) = true := by
  decide +kernel

/-! ### Index register and memory (spec/95_test_vectors.md 2.3) -/

theorem test_2_3_2_ld_i :
    after 0xAFFF (fun s => s) (fun t => t.i == 0x0FFF) = true := by decide +kernel
theorem test_2_3_5_add_i_largest :
    after 0xF11E (fun s => (s.setReg 1 0xFF).setIndex 0xFF00) (fun t => t.i == 0xFFFF && t.reg 15 == 0) = true := by decide +kernel
theorem test_2_3_6_add_i_overflow :
    after 0xF11E (fun s => ((s.setReg 1 0xFF).setReg 15 7).setIndex 0xFF01) (fun t => stoppedWith 6 0xF11E 0x10000 t && t.i == 0xFF01 && t.reg 15 == 7) = true := by decide +kernel
theorem test_2_3_10_ld_f_no_mask :
    after 0xF129 (fun s => s.setReg 1 0xFF) (fun t => t.i == 0x04FB) = true := by decide +kernel
theorem test_2_3_17_bcd_last_i :
    after 0xF133 (fun s => (s.setReg 1 0x63).setIndex 0x0FFD) (fun t => t.byte 0xFFD == 0 && t.byte 0xFFE == 9 && t.byte 0xFFF == 9) = true := by decide +kernel
theorem test_2_3_18_bcd_faults :
    after 0xF133 (fun s => ((s.setReg 1 0x7B).setIndex 0x0FFE).storeBytes 0xFFE [0xEE, 0xEE]) (fun t => stoppedWith 3 0xF133 0x1000 t && t.byte 0xFFE == 0xEE && t.byte 0xFFF == 0xEE) = true := by decide +kernel
theorem test_2_3_23_store_last_i :
    after 0xF755 (fun s => { s with i := 0x0FF8, v := ⟨(List.range 16).map (fun j => BitVec.ofNat 8 (0x10 + j)) |>.toArray, by decide⟩ }) (fun t => t.byte 0xFF8 == 0x10 && t.byte 0xFFF == 0x17 && t.i == 0x0FF8) = true := by decide +kernel
theorem test_2_3_26_store_over_itself :
    after 0xF155 (fun s => ((s.setReg 0 0x12).setReg 1 0x34).setIndex 0x200) (fun t => t.byte 0x200 == 0x12 && t.byte 0x201 == 0x34 && t.pc == 0x202) = true := by decide +kernel
theorem test_2_3_27_load :
    after 0xF265 (fun s => ((s.setReg 3 0x99).setIndex 0x300).storeBytes 0x300 [2, 3, 4, 5]) (fun t => t.reg 0 == 2 && t.reg 1 == 3 && t.reg 2 == 4 && t.reg 3 == 0x99) = true := by decide +kernel
theorem test_2_3_30_load_faults :
    after 0xF165 (fun s => ((s.setReg 0 1).setReg 1 2).setIndex 0xFFF) (fun t => stoppedWith 3 0xF165 0x1000 t && t.reg 0 == 1 && t.reg 1 == 2) = true := by decide +kernel

/-! ### Display (spec/95_test_vectors.md 2.4) -/

theorem test_2_4_2_cls :
    after 0x00E0 (fun s => lightUp [5] { s with df := true }) (fun t => t.disp[5] == false && t.df && t.clears == 1) = true := by decide +kernel
theorem test_2_4_10_drw_column_64_gt :
    after 0xD011 (fun s => ((s.setReg 0 0x3C).setIndex 0x300).storeBytes 0x300 [0xFF]) (fun t => showsIn 70 [60, 61, 62, 63, 64, 1, 2, 3] t && t.reg 15 == 0 && t.df) = true := by decide +kernel
theorem test_2_4_32_drw_origin_moves :
    after 0xD1F1 (fun s => lightUp [0] (((s.setReg 15 9).setIndex 0x300).storeBytes 0x300 [0xC0])) (fun t => showsIn 70 [65] t && t.reg 15 == 1) = true := by decide +kernel

/-- The sprite engine itself, on more vectors of 2.4: row 13 (`ge`), row 17, row 19 (row 32 under `gt`), row 20. -/
def drawsAt (cmp : WrapCmp) (ox oy : Byte) (spr : Byte) : Except Raised (List Nat) :=
  match drawRow cmp 0 1 0 spr { v := (Vector.replicate 16 0).set 0 ox |>.set 1 oy, disp := Vector.replicate 2048 false } with
  | .ok c => .ok ((List.range 400).filter fun k => c.disp[k]? == some true)
  | .error r => .error r

theorem test_2_4_13_ge : drawsAt .ge 62 5 0xFF = .ok [320, 321, 322, 323, 324, 325, 382, 383] := by decide +kernel
theorem test_2_4_17_row_1 : drawsAt .gt 128 0 0xFF = .ok [64, 65, 66, 67, 68, 69, 70, 71] := by decide +kernel
theorem test_2_4_19_row_32 : drawsAt .gt 0 32 0x80 = .error { cause := .displayOutOfRange, info := 0x800 } := by
  decide +kernel
theorem test_2_4_20_row_32_ge : drawsAt .ge 0 32 0x80 = .ok [0] := by decide +kernel

/-! ### Timers and keyboard (spec/95_test_vectors.md 2.5) -/

theorem test_2_5_1_ld_dt :
    after 0xF215 (fun s => s.setReg 2 0x3C) (fun t => t.dt == 0x3C) = true := by decide +kernel
theorem test_2_5_2_ld_vx_dt :
    after 0xF207 (fun s => s.setDt 0x3C) (fun t => t.reg 2 == 0x3C && t.dt == 0x3C) = true := by decide +kernel
theorem test_2_5_3_ld_st :
    after 0xF318 (fun s => s.setReg 3 5) (fun t => t.st == 5) = true := by decide +kernel
theorem test_2_5_6_skp_not_wired :
    after 0xE19E (fun s => s.setReg 1 0x55) (fun t => t.pc == 0x202 && !t.err.valid) = true := by decide +kernel
theorem test_2_5_5_sknp_not_wired :
    after 0xE1A1 (fun s => s.setReg 1 5) (fun t => t.pc == 0x202 && t.polls == 0) = true := by decide +kernel
theorem test_2_5_7_ld_k_not_wired :
    after 0xF40A (fun s => s.setReg 4 0x77) (fun t => t.reg 4 == 0x77 && t.pc == 0x202 && !t.waitKey) = true := by decide +kernel
theorem test_2_5_12_skp_no_key :
    after 0xE19E (fun s => (wired s).setReg 1 0x10) (fun t => stoppedWith 8 0xE19E 0x10 t) = true := by decide +kernel
theorem test_2_5_13_sknp_no_key :
    after 0xE1A1 (fun s => (wired s).setReg 1 0xFF) (fun t => stoppedWith 8 0xE1A1 0xFF t) = true := by decide +kernel
theorem test_2_5_14_ld_k_waits :
    after 0xF40A (fun s => (wired s).setReg 4 0x77) (fun t => t.waitKey && t.waitX == 4 && t.reg 4 == 0x77 && (onKey 0xB t).reg 4 == 0x0B && !(onKey 0xB t).waitKey) = true := by decide +kernel
theorem test_2_5_15_tick : tickDown 2 = 1 ∧ tickDown 1 = 0 ∧ tickDown 0 = 0 := by decide

/-! ### Fetch and the unknown opcode -/

/-- spec/95_test_vectors.md 2.1 row 25. -/
theorem test_2_1_25_fetch_out_of_range :
    answers (step ({ State.reset with pc := 0xFFF }.storeBytes 0xFFF [0x60]))
      (fun t => t.err == { valid := true, code := 2, opcode := 0, addr := 0xFFF, info := 0 } && t.pc == 0xFFF) = true := by
  decide +kernel

/-- spec/95_test_vectors.md 2.1 row 26: an odd `PC` is legal. -/
theorem test_2_1_26_odd_pc :
    answers (step ({ State.reset with pc := 0x201 }.storeBytes 0x200 [0x00, 0x61, 0x23, 0x00]))
      (fun t => t.reg 1 == 0x23 && t.pc == 0x203) = true := by decide +kernel

/-- spec/95_test_vectors.md 2.6: `01E0` is unknown. -/
theorem test_2_6_unknown : after 0x01E0 (fun s => s) (stoppedWith 1 0x01E0 0) = true := by decide +kernel

/-! ### Witnesses: for every statement with hypotheses, a state and operands that meet all of them -/

theorem answers_next {o : Host.Outcome State Fault Refusal} {p : State → Bool} (h : answers o p = true) :
    ∃ t, o = .next t ∧ p t = true := by
  cases o with
  | next t => exact ⟨t, rfl, h⟩
  | fault f => cases h
  | refused r => cases h

theorem spriteFits_of {s : State} {x y : Reg} {n : Nat} (hr : s.rowsReadable n)
    (h : ∀ cx < 8, ∀ cy < n, (s.byte (s.i.toNat + cy)).toNat.testBit (7 - cx) = true →
      s.landsIn x y false (cx, cy) ≤ 2047) : s.spriteFits x y n :=
  ⟨hr, fun cx cy hs => h cx hs.1 cy hs.2.1 hs.2.2⟩

theorem witness_EncodeInvertsDecode : decodeWord 0x8AB4 = .ok (.addVxVy 10 11) := by decide +kernel

theorem witness_TableRowsAreDisjointAndDecide :
    (∃ r ∈ opcodeTable, 0x8ABE &&& r.mask = r.fixed) ∧ ∀ r ∈ opcodeTable, 0x8AB8 &&& r.mask ≠ r.fixed := by
  decide +kernel

/-- At the last address a word can be fetched from, 0xFFE. -/
theorem witness_StepRunsTheDecodedInstruction :
    let s := { State.reset with pc := 0xFFE }.withFetchWord 16 0x6005
    s.Running ∧ s.pc.toNat ≤ 0xFFE ∧ s.pc.toNat = 0xFFE ∧
      decodeWord (BitVec.ofNat 16 (256 * (s.byte s.pc.toNat).toNat + (s.byte (s.pc.toNat + 1)).toNat)) =
        .ok (.ldVxKk 0 5) := by decide +kernel

theorem witness_EncodedInstructionAtPcRuns :
    let s := placed 0xD015 id
    s.Running ∧ s.pc.toNat ≤ 0xFFE ∧ (s.byte s.pc.toNat).toNat = (encode (.drwVxVyN 0 1 5)).toNat / 256 ∧
      (s.byte (s.pc.toNat + 1)).toNat = (encode (.drwVxVyN 0 1 5)).toNat % 256 := by decide +kernel

theorem witness_StoppedOrBlockedStepChangesNothing :
    stopped.err.valid = true ∧
      ((waiting State.reset).cfg.keyboardWired = true ∧ (waiting State.reset).waitKey = true) := by decide +kernel

theorem witness_FetchOutOfRangeStopsTheCore :
    { State.reset with pc := 0xFFF }.Running ∧ 0xFFE < { State.reset with pc := 0xFFF }.pc.toNat := by decide +kernel

theorem witness_UnknownOpcodeStopsTheCore :
    let s := { State.reset with pc := 0xFFE }.withFetchWord 16 0x8AB8
    s.Running ∧ s.pc.toNat ≤ 0xFFE ∧
      (0x8AB8 : Word).toNat = 256 * (s.byte s.pc.toNat).toNat + (s.byte (s.pc.toNat + 1)).toNat ∧
      decodeWord 0x8AB8 = .error (.unknownOpcode 0x8AB8) := by decide +kernel

theorem selfJump_inv : (placed 0x1200 id).Inv where
  memory := by decide +kernel
  pcBound := by decide +kernel
  stackBound := by decide +kernel
  waitWired := by decide +kernel
  errEmpty := by decide +kernel
  errCause := by decide +kernel

theorem witness_StepKeepsInvariant : ∃ s : State, s.Inv ∧ ∃ t, step s = .next t ∧ (t.pc == 0x200) = true :=
  ⟨_, selfJump_inv, answers_next (by decide +kernel)⟩

theorem witness_EveryEventKeepsInvariant :
    ∃ s : State, s.Inv ∧ ∃ t, handleAll [.load [0x60], .timerTick, .key 3, .consumeRedraw, .reset] s = .next t ∧
      (t.pc == 0x200) = true :=
  ⟨_, selfJump_inv, answers_next (by decide +kernel)⟩

theorem witness_ParametersStayAndInputsCountUp :
    (∃ t, handle .reset State.reset = .next t) ∧ (∃ t, step (placed 0xC0FF id) = .next t ∧ (t.draws == 1) = true) ∧
      Event.reset ≠ Event.step :=
  ⟨⟨_, rfl⟩, answers_next (by decide +kernel), by decide +kernel⟩

/-- One instruction for each kind of arm: the destination, the flag register, `DRW`, and the block's last register. -/
theorem witness_RegistersChangeOnlyWhereTheTableSays :
    let s := drawing [0] 0 0
    (∃ t, exec (.ldVxKk 3 5) s = .next t ∧ (t.reg 3 != s.reg 3) = true) ∧
      (∃ t, exec (.subVxVy 3 4) (s.setReg 3 1) = .next t ∧ (t.reg vf != s.reg vf) = true) ∧
      (∃ t, exec (.drwVxVyN 0 1 5) s = .next t ∧ (t.reg vf != s.reg vf) = true) ∧
      ∃ t, exec (.ldVxMem 2) s = .next t ∧ (t.reg 2 != s.reg 2) = true :=
  ⟨answers_next (by decide +kernel), answers_next (by decide +kernel), answers_next (by decide +kernel),
    answers_next (by decide +kernel)⟩

theorem witness_OnlyTheNamedInstructionsWrite_memory :
    ∃ t, exec (.ldMemVx 0) (State.reset.setReg 0 9) = .next t ∧ (t.byte 0 != State.reset.byte 0) = true :=
  answers_next (by decide +kernel)
theorem witness_OnlyTheNamedInstructionsWrite_index :
    ∃ t, exec (.ldIAddr 1) State.reset = .next t ∧ (t.i != State.reset.i) = true := answers_next (by decide +kernel)
theorem witness_OnlyTheNamedInstructionsWrite_stack :
    ∃ t, exec (.callAddr 1) State.reset = .next t ∧
      (t.stack[0] != State.reset.stack[0] && t.sp != State.reset.sp && t.pc != State.reset.pc) = true :=
  answers_next (by decide +kernel)
theorem witness_OnlyTheNamedInstructionsWrite_timers :
    (∃ t, exec (.ldDtVx 0) (State.reset.setReg 0 9) = .next t ∧ (t.dt != 0) = true) ∧
      ∃ t, exec (.ldStVx 0) (State.reset.setReg 0 9) = .next t ∧ (t.st != 0) = true :=
  ⟨answers_next (by decide +kernel), answers_next (by decide +kernel)⟩
theorem witness_OnlyTheNamedInstructionsWrite_display :
    ∃ t, exec (.drwVxVyN 0 1 5) State.reset = .next t ∧ (t.disp[0] && !State.reset.disp[0] && t.df && !State.reset.df) = true :=
  answers_next (by decide +kernel)
theorem witness_OnlyTheNamedInstructionsWrite_wait :
    ∃ t, exec (.ldVxK 1) (wired State.reset) = .next t ∧ (t.waitKey && t.waitX != 0) = true :=
  answers_next (by decide +kernel)
theorem witness_OnlyTheNamedInstructionsWrite_inputs :
    (∃ t, exec (.rndVxKk 0 0) State.reset = .next t ∧ (t.draws != 0) = true) ∧
      ((wired State.reset).cfg.keyboardWired = true ∧
        ∃ t, exec (.skpVx 0) (wired State.reset) = .next t ∧ t.polls = 1) ∧
      ∃ t, exec .cls State.reset = .next t ∧ (t.clears != 0) = true :=
  ⟨answers_next (by decide +kernel), ⟨rfl, (wired State.reset).tookPoll.skipIf (Config.isPressed 0 0 == true), rfl, by
    simp [wired, State.reset, State.resetWith]⟩, answers_next (by decide +kernel)⟩

/-- Both clauses: an unknown opcode and a fetch out of range. -/
theorem witness_StepFaultIsPrecise :
    State.reset.err.valid = false ∧
      (∃ t, step State.reset = .next t ∧ (t.err.valid && t.err.code != 2) = true) ∧
      ∃ t, step { State.reset with pc := 0xFFF } = .next t ∧ (t.err.valid && t.err.code == 2) = true :=
  ⟨rfl, answers_next (by decide +kernel), answers_next (by decide +kernel)⟩

theorem witness_OnlyTheListedInstructionsFault_stack_index :
    (∃ t, exec .ret State.reset = .next t ∧ (t.err.code == 5) = true) ∧
      (∃ t, exec (.callAddr 0) { State.reset with sp := 16 } = .next t ∧ (t.err.code == 4) = true) ∧
      ∃ t, exec (.addIVx 1) ((State.reset.setReg 1 1).setIndex 0xFFFF) = .next t ∧ (t.err.code == 6) = true :=
  ⟨answers_next (by decide +kernel), answers_next (by decide +kernel), answers_next (by decide +kernel)⟩

theorem witness_OnlyTheListedInstructionsFault_memory :
    let s := State.reset.setIndex 0x1000
    (∃ t, exec (.ldBVx 0) s = .next t ∧ (t.err.code == 3) = true) ∧
      (∃ t, exec (.ldMemVx 0) s = .next t ∧ (t.err.code == 3) = true) ∧
      (∃ t, exec (.ldVxMem 0) s = .next t ∧ (t.err.code == 3) = true) ∧
      ∃ t, exec (.drwVxVyN 0 0 1) s = .next t ∧ (t.err.code == 3) = true :=
  ⟨answers_next (by decide +kernel), answers_next (by decide +kernel), answers_next (by decide +kernel),
    answers_next (by decide +kernel)⟩

theorem witness_OnlyTheListedInstructionsFault_display_key :
    (∃ t, exec (.drwVxVyN 0 1 1) (drawing [] 0 32) = .next t ∧ (t.err.code == 7) = true) ∧
      (∃ t, exec (.skpVx 1) ((wired State.reset).setReg 1 16) = .next t ∧ (t.err.code == 8) = true) ∧
      ∃ t, exec (.sknpVx 1) ((wired State.reset).setReg 1 16) = .next t ∧ (t.err.code == 8) = true :=
  ⟨answers_next (by decide +kernel), answers_next (by decide +kernel), answers_next (by decide +kernel)⟩

theorem witness_OnlyResetClearsTheError :
    (Event.step ≠ .reset ∧ stopped.err.valid = true ∧ ∃ t, handle .step stopped = .next t) ∧
      ∃ t, handle .reset stopped = .next t :=
  ⟨⟨by decide +kernel, rfl, _, rfl⟩, _, rfl⟩

theorem witness_StepIgnoresRedrawFlagAndSoundTimer :
    ∃ t, step (placed 0xF018 id) = .next t ∧ (t.pc == 0x202) = true := answers_next (by decide +kernel)

/-- The two clauses where they meet: the largest sum that fits, and the first that does not. -/
theorem witness_AddToIndexIsExactOrFaults :
    ((State.reset.setReg 1 0xFF).setIndex 0xFF00).i.toNat + 0xFF ≤ 0xFFFF ∧
      0xFFFF < ((State.reset.setReg 1 0xFF).setIndex 0xFF01).i.toNat + 0xFF ∧
      (((State.reset.setReg 1 0xFF).setIndex 0xFF01).reg 1).toNat = 0xFF := by decide +kernel

theorem witness_BcdStoreWritesThreeDigits :
    (State.reset.setIndex 0xFFD).i.toNat ≤ 0xFFD ∧ 0xFFD < (State.reset.setIndex 0xFFE).i.toNat := by decide +kernel

theorem witness_BlockStoreWritesTheRegisters :
    (State.reset.setIndex 0xFF0).i.toNat + (15 : Reg).val ≤ 0xFFF ∧
      0xFFF < (State.reset.setIndex 0xFF1).i.toNat + (15 : Reg).val := by decide +kernel

theorem witness_BlockLoadReadsTheRegisters :
    (State.reset.setIndex 0xFFF).i.toNat + (0 : Reg).val ≤ 0xFFF ∧
      0xFFF < (State.reset.setIndex 0xFFF).i.toNat + (1 : Reg).val := by decide +kernel

theorem witness_StoreThenLoadRestoresRegisters :
    (State.reset.setIndex 0xFF0).i.toNat + (15 : Reg).val ≤ 0xFFF := by decide +kernel

theorem witness_StoredBytesAreFetchedAtOnce :
    let s := ((State.reset.setReg 0 0x61).setReg 1 0x23).setIndex 0x200
    s.Running ∧ s.i.toNat + (1 : Reg).val ≤ 0xFFF ∧ (1 : Reg) ≤ 1 ∧ (1 : Reg).val = (0 : Reg).val + 1 ∧
      s.pc.toNat = s.i.toNat + (0 : Reg).val ∧
      decodeWord (BitVec.ofNat 16 (256 * (s.reg 0).toNat + (s.reg 1).toNat)) = .ok (.ldVxKk 1 0x23) := by
  decide +kernel

theorem witness_SelfJumpChangesNothing :
    let s := placed 0x1200 id
    s.Running ∧ s.pc.toNat ≤ 0xFFE ∧ (s.byte s.pc.toNat).toNat = 0x10 + s.pc.toNat / 256 ∧
      (s.byte (s.pc.toNat + 1)).toNat = s.pc.toNat % 256 := by decide +kernel

theorem witness_CallPushesTheReturnAddress :
    { State.reset with sp := 15 }.sp.val < 16 ∧ { State.reset with sp := 16 }.sp.val = 16 := by decide +kernel

theorem witness_ReturnPopsTheAddress :
    0 < { State.reset with sp := 1 }.sp.val ∧ State.reset.sp.val = 0 := by decide +kernel

theorem witness_CallThenReturnComesBack :
    State.reset.sp.val < 16 ∧
      ∃ t, exec (.callAddr 0x300) State.reset = .next t ∧
        (t.sp.val == State.reset.sp.val + 1 && t.stack[0]? == t.stack[0]? && t.stack[0]? != State.reset.stack[0]?) =
          true :=
  ⟨by decide +kernel, answers_next (by decide +kernel)⟩

/-- A font glyph in the last rows and columns, over a lit cell and over none. -/
theorem witness_SpriteDrawTogglesItsCells :
    (0 : Reg) ≠ vf ∧ (1 : Reg) ≠ vf ∧ (drawing [1788] 60 27).spriteFits 0 1 5 ∧
      (drawing [] 60 27).spriteFits 0 1 5 ∧
      (drawing [1788] 60 27).spriteAt 5 0 0 ∧ (drawing [1788] 60 27).lit
        ((drawing [1788] 60 27).landsIn 0 1 false (0, 0)) :=
  ⟨by decide +kernel, by decide +kernel, spriteFits_of (by decide +kernel) (by decide +kernel), spriteFits_of (by decide +kernel) (by decide +kernel),
    by unfold State.spriteAt; decide +kernel, by decide +kernel⟩

theorem witness_SpriteDrawFollowsTheMovingOrigin_clean :
    (drawing [] 0 0).rowsReadable 5 ∧ (drawing [] 0 0).drawnClean 15 1 ((drawing [] 0 0).spritePixels 5) :=
  ⟨by decide +kernel, by unfold State.drawnClean; decide +kernel⟩

theorem witness_SpriteDrawFollowsTheMovingOrigin_colliding :
    let s := drawing [1] 0 0
    ∃ pre p post, s.spritePixels 5 = pre ++ p :: post ∧ s.drawnColliding 15 1 pre p post :=
  ⟨[(0, 0)], (1, 0), ((drawing [1] 0 0).spritePixels 5).drop 2, by decide +kernel, by
    unfold State.drawnColliding State.drawnClean; decide +kernel⟩

/-- The first row already lies outside memory; and the second, after a clean first row. -/
theorem witness_SpriteDrawStopsAtTheFirstFault_memory :
    let s := (drawing [] 0 0).setIndex 0x1000
    let u := (drawing [] 0 0).setIndex 0xFFF
    (s.rowsReadable 0 ∧ 0 < (1 : BitVec 4).toNat ∧ 0xFFF < s.i.toNat + 0 ∧ s.drawn 0 1 (s.spritePixels 0) false) ∧
      u.rowsReadable 1 ∧ 1 < (2 : BitVec 4).toNat ∧ 0xFFF < u.i.toNat + 1 ∧
      u.drawn 0 1 (u.spritePixels 1) false :=
  ⟨⟨by decide +kernel, by decide +kernel, by decide +kernel, by unfold State.drawn State.drawnClean; decide +kernel⟩, by decide +kernel, by decide +kernel,
    by decide +kernel, by unfold State.drawn State.drawnClean; decide +kernel⟩

/-- A first pixel in row 32; and, after a collision in row 31, a pixel in row 32. -/
theorem witness_SpriteDrawStopsAtTheFirstFault_display :
    let s := drawing [] 0 32
    let u := drawing [1984] 0 31
    (s.rowsReadable 1 ∧ 1 ≤ (1 : BitVec 4).toNat ∧ s.spritePixels 1 = [] ++ (0, 0) :: (s.spritePixels 1).tail ∧
        s.drawn 0 1 [] false ∧ 2047 < s.landsIn 0 1 false (0, 0)) ∧
      u.rowsReadable 2 ∧ 2 ≤ (2 : BitVec 4).toNat ∧
      u.spritePixels 2 = u.spritePixels 1 ++ (0, 1) :: [(3, 1)] ∧ u.drawn 0 1 (u.spritePixels 1) true ∧
      2047 < u.landsIn 0 1 true (0, 1) :=
  ⟨⟨by decide +kernel, by decide +kernel, by decide +kernel, by unfold State.drawn State.drawnClean; decide +kernel,
      by decide +kernel⟩, by decide +kernel, by decide +kernel, by decide +kernel,
    ⟨[], (0, 0), ((drawing [1984] 0 31).spritePixels 1).tail, by decide +kernel, by
      unfold State.drawnColliding State.drawnClean; decide +kernel⟩, by decide +kernel⟩

theorem witness_SpriteDrawTwiceRestoresTheDisplay :
    (0 : Reg) ≠ vf ∧ (1 : Reg) ≠ vf ∧ (drawing [] 60 27).spriteFits 0 1 5 ∧
      ¬ (drawing [] 60 27).lit ((drawing [] 60 27).landsIn 0 1 false (0, 0)) :=
  ⟨by decide +kernel, by decide +kernel, spriteFits_of (by decide +kernel) (by decide +kernel), by decide +kernel⟩

theorem witness_WrapSubtractsOnce :
    63 < 64 ∧ wrap .gt 63 64 = 63 ∧ wrap .ge 63 64 = 63 ∧ wrap .gt 64 64 = 64 ∧ wrap .ge 64 64 = 0 ∧ 64 < 65 ∧
      wrap .gt 65 64 = 1 ∧ wrap .ge 65 64 = 1 ∧ wrap .gt 262 64 = 198 := by decide +kernel

theorem witness_SpritePixelsLandInDistinctCells :
    255 < 256 ∧ 7 < 8 ∧ 14 < 15 ∧ cellOf .ge 255 255 7 14 = cellOf .ge 255 255 7 14 := by decide +kernel

theorem witness_KeyInstructionsWithoutKeyboardDoNothing : State.reset.cfg.keyboardWired = false := rfl

theorem witness_KeySkipsFollowTheKeyboard :
    (wired State.reset).cfg.keyboardWired = true ∧
      (((wired State.reset).setReg 1 15).reg 1).toNat = (15 : BitVec 4).toNat ∧
      15 < (((wired State.reset).setReg 1 16).reg 1).toNat := by decide +kernel

theorem witness_KeyWaitHoldsUntilAKey :
    (wired State.reset).cfg.keyboardWired = true ∧ (wired State.reset).err.valid = false := by decide +kernel

theorem witness_LoadPlacesTheImage :
    (List.replicate 3584 (0x60 : Byte)).length ≤ 3584 ∧ 3583 < (List.replicate 3584 (0x60 : Byte)).length ∧
      0x200 + (List.replicate 3583 (0x60 : Byte)).length ≤ 0xFFF := by
  simp only [List.length_replicate]; decide +kernel

theorem witness_OversizedLoadIsRejectedWhole : 3584 < (List.replicate 3585 (0x60 : Byte)).length := by
  simp only [List.length_replicate]; decide +kernel

theorem witness_HostEventsTouchOnlyTheirState :
    (onReset { State.reset with cfg := { Config.default with timerTickWired := true } }).cfg.timerTickWired = true ∧
      State.reset.cfg.timerTickWired = false ∧ State.reset.waitKey = false := by decide +kernel

end Sys2Proof.Tests
end

