-- ==== Sys2Proof/Proofs/Skips.lean ====
section
/-! The four skips (spec/40_control_transfer.md R124 to R128): each is `State.skipIf` with its condition, and the
condition is a comparison of two unsigned bytes. -/

namespace Sys2Proof.Machine

/-! ### The condition of a skip, as a comparison of unsigned values -/

theorem State.skipIf_beq (s : State) (a b : Byte) :
    s.skipIf (a == b) = { s with pc := if a.toNat = b.toNat then s.pc + 2 else s.pc } := by
  rw [State.skipIf_eq]
  simp only [State.setPc, beq_iff_eq, BitVec.toNat_inj]

theorem State.skipIf_bne (s : State) (a b : Byte) :
    s.skipIf (a != b) = { s with pc := if a.toNat = b.toNat then s.pc else s.pc + 2 } := by
  rw [State.skipIf_eq]
  simp only [State.setPc, bne_iff_ne, BitVec.toNat_inj, ne_eq, ite_not]

/-! ### Each skip instruction is one `State.skipIf` -/

theorem exec_seVxKk (x : Reg) (kk : Byte) (s : State) :
    exec (.seVxKk x kk) s = .next (s.skipIf (s.reg x == kk)) := rfl

theorem exec_sneVxKk (x : Reg) (kk : Byte) (s : State) :
    exec (.sneVxKk x kk) s = .next (s.skipIf (s.reg x != kk)) := rfl

theorem exec_seVxVy (x y : Reg) (s : State) :
    exec (.seVxVy x y) s = .next (s.skipIf (s.reg x == s.reg y)) := rfl

theorem exec_sneVxVy (x y : Reg) (s : State) :
    exec (.sneVxVy x y) s = .next (s.skipIf (s.reg x != s.reg y)) := rfl

/-- Settles O39: each skip is `State.skipIf`, whose condition on bytes is the condition on their unsigned values. -/
theorem skipsCompareAndMoveThePc : Obligations.SkipsCompareAndMoveThePc := by
  intro x y kk s
  refine ⟨?seKk, ?sneKk, ?seVy, ?sneVy⟩
  case seKk => rw [exec_seVxKk, State.skipIf_beq]
  case sneKk => rw [exec_sneVxKk, State.skipIf_bne]
  case seVy => rw [exec_seVxVy, State.skipIf_beq]
  case sneVy => rw [exec_sneVxVy, State.skipIf_bne]

end Sys2Proof.Machine
end

