-- ==== Sys2Proof/Proofs/RegisterAlu.lean ====
section
/-! The register loads, the immediate add and the logic operations (spec/41_register_alu.md R142 to R147): each is one
`State.setReg` of its destination, and a register write leaves every other register and every other field as before. -/

namespace Sys2Proof.Machine

/-! ### One register write -/

theorem State.reg_setReg_self (s : State) (x : Reg) (b : Byte) : (s.setReg x b).reg x = b := by
  rw [State.reg_setReg, if_pos rfl]

/-- The frame of a register write: the register file is the only field it changes, and the register written the only
register. -/
theorem State.setReg_frame (s : State) (x : Reg) (b : Byte) :
    s.setReg x b = { s with v := (s.setReg x b).v } ∧ ∀ r, r ≠ x → (s.setReg x b).reg r = s.reg r :=
  ⟨rfl, fun r hr => by rw [State.reg_setReg, if_neg hr]⟩

/-! ### Each of the six instructions is one register write -/

theorem exec_ldVxKk (x : Reg) (kk : Byte) (s : State) : exec (.ldVxKk x kk) s = .next (s.setReg x kk) := rfl

theorem exec_addVxKk (x : Reg) (kk : Byte) (s : State) :
    exec (.addVxKk x kk) s = .next (s.setReg x (s.reg x + kk)) := rfl

theorem exec_ldVxVy (x y : Reg) (s : State) : exec (.ldVxVy x y) s = .next (s.setReg x (s.reg y)) := rfl

theorem exec_orVxVy (x y : Reg) (s : State) :
    exec (.orVxVy x y) s = .next (s.setReg x (s.reg x ||| s.reg y)) := rfl

theorem exec_andVxVy (x y : Reg) (s : State) :
    exec (.andVxVy x y) s = .next (s.setReg x (s.reg x &&& s.reg y)) := rfl

theorem exec_xorVxVy (x y : Reg) (s : State) :
    exec (.xorVxVy x y) s = .next (s.setReg x (s.reg x ^^^ s.reg y)) := rfl

/-- Settles O22: each instruction is one register write, so its frame is that of `State.setReg`, and the value written
is the rule's value on bytes; for the add, `BitVec.toNat_add` is the reduction modulo 256 in which the carry is lost. -/
theorem loadsAddAndLogicWriteTheDestination : Obligations.LoadsAddAndLogicWriteTheDestination := by
  intro x y kk s
  refine ⟨⟨_, exec_ldVxKk x kk s, ?ldKk, State.setReg_frame s x _⟩,
    ⟨_, exec_addVxKk x kk s, ?addKk, State.setReg_frame s x _⟩,
    ⟨_, exec_ldVxVy x y s, ?ldVy, State.setReg_frame s x _⟩,
    ⟨_, exec_orVxVy x y s, ?or, State.setReg_frame s x _⟩,
    ⟨_, exec_andVxVy x y s, ?and, State.setReg_frame s x _⟩,
    ⟨_, exec_xorVxVy x y s, ?xor, State.setReg_frame s x _⟩⟩
  case ldKk => rw [State.reg_setReg_self]
  case addKk => rw [State.reg_setReg_self, BitVec.toNat_add]
  case ldVy => rw [State.reg_setReg_self]
  case or => rw [State.reg_setReg_self, BitVec.toNat_or]
  case and => rw [State.reg_setReg_self, BitVec.toNat_and]
  case xor => rw [State.reg_setReg_self, BitVec.toNat_xor]

end Sys2Proof.Machine
end

