-- ==== Sys2Proof/Proofs/LoadEvent.lean ====
section
/-! The event `load` (spec/50_interfaces.md R236): an image that fits is one block store at 0x200, and a block store
changes the bytes of its range and nothing else. -/

namespace Sys2Proof.Machine

/-! ### One block store -/

theorem State.byte_storeBytes_add (s : State) (base j : Nat) (bytes : List Byte) (hj : j < bytes.length) :
    (s.storeBytes base bytes).byte (base + j) = bytes[j] := by
  have hin : base ≤ base + j ∧ base + j < base + bytes.length := by omega
  rw [State.byte_storeBytes, dif_pos hin]
  simp only [Nat.add_sub_cancel_left]

theorem State.byte_storeBytes_outside (s : State) (base a : Nat) (bytes : List Byte)
    (ha : a < base ∨ base + bytes.length ≤ a) : (s.storeBytes base bytes).byte a = s.byte a := by
  have hout : ¬ (base ≤ a ∧ a < base + bytes.length) := by omega
  rw [State.byte_storeBytes, dif_neg hout]

/-- The frame of a block store: memory is the only field it changes. -/
theorem State.storeBytes_frame (s : State) (base : Nat) (bytes : List Byte) :
    s.storeBytes base bytes = { s with mem := (s.storeBytes base bytes).mem } := rfl

/-! ### An image that fits is accepted and stored -/

theorem imageWellFormed_iff (bytes : List Byte) : imageWellFormed bytes = true ↔ bytes.length ≤ 3584 :=
  decide_eq_true_iff

theorem replyTo_load_of_fits (bytes : List Byte) (hfit : imageWellFormed bytes = true) :
    replyTo (.load bytes) = .done := if_pos hfit

theorem handle_load_of_fits (bytes : List Byte) (s : State) (hfit : imageWellFormed bytes = true) :
    handle (.load bytes) s = .next (s.storeBytes 0x200 bytes) := congrArg Host.Outcome.next (if_pos hfit)

/-- Settles O52: the image fits, so the load is one block store at 0x200, which reads back inside its range and leaves
every byte outside it and every other field as before. -/
theorem loadPlacesTheImage : Obligations.LoadPlacesTheImage := by
  intro bytes s hlen
  have hfit : imageWellFormed bytes = true := (imageWellFormed_iff bytes).mpr hlen
  refine ⟨replyTo_load_of_fits bytes hfit, s.storeBytes 0x200 bytes, handle_load_of_fits bytes s hfit,
    s.storeBytes_frame 0x200 bytes, ?image, ?rest⟩
  case image => exact fun j hj => s.byte_storeBytes_add 0x200 j bytes hj
  case rest => exact fun a ha => s.byte_storeBytes_outside 0x200 a bytes ha

end Sys2Proof.Machine
end

