-- ==== Sys2Proof/Proofs/DecodeEncode.lean ====
section
/-! Decoder and encoder against each other (spec/30_encoding.md R95 to R99). Constructor number `k` of `Instr` is row
`k` of the opcode table: that row selects the instruction's word and builds the instruction back from it. -/

namespace Sys2Proof

/-! ### From an instruction to its word and back -/

theorem Instr.ctorIdx_lt (i : Instr) : i.ctorIdx < opcodeTable.length := by
  cases i <;> exact Nat.le_of_ble_eq_true rfl

/-- The row of the opcode table that an instruction is written with. -/
def Instr.row (i : Instr) : OpcodeRow := opcodeTable[i.ctorIdx]'i.ctorIdx_lt

theorem Instr.row_mem (i : Instr) : i.row ∈ opcodeTable := List.getElem_mem _

theorem Instr.row_bits (i : Instr) : Laws.FixedBits.rowBits i = (i.row.fixed, i.row.mask) := by
  cases i <;> rfl

open Laws.FixedBits in
theorem encode_fixedBits (i : Instr) : Laws.FixedBits.Statement i :=
  match i with
  | .cls => cls
  | .ret => ret
  | .jpAddr addr => jpAddr addr
  | .callAddr addr => callAddr addr
  | .seVxKk x kk => seVxKk x kk
  | .sneVxKk x kk => sneVxKk x kk
  | .seVxVy x y => seVxVy x y
  | .ldVxKk x kk => ldVxKk x kk
  | .addVxKk x kk => addVxKk x kk
  | .ldVxVy x y => ldVxVy x y
  | .orVxVy x y => orVxVy x y
  | .andVxVy x y => andVxVy x y
  | .xorVxVy x y => xorVxVy x y
  | .addVxVy x y => addVxVy x y
  | .subVxVy x y => subVxVy x y
  | .shrVx x y => shrVx x y
  | .subnVxVy x y => subnVxVy x y
  | .shlVx x y => shlVx x y
  | .sneVxVy x y => sneVxVy x y
  | .ldIAddr addr => ldIAddr addr
  | .jpV0Addr addr => jpV0Addr addr
  | .rndVxKk x kk => rndVxKk x kk
  | .drwVxVyN x y n => drwVxVyN x y n
  | .skpVx x => skpVx x
  | .sknpVx x => sknpVx x
  | .ldVxDt x => ldVxDt x
  | .ldVxK x => ldVxK x
  | .ldDtVx x => ldDtVx x
  | .ldStVx x => ldStVx x
  | .addIVx x => addIVx x
  | .ldFVx x => ldFVx x
  | .ldBVx x => ldBVx x
  | .ldMemVx x => ldMemVx x
  | .ldVxMem x => ldVxMem x

theorem Instr.row_selects_encode (i : Instr) : i.row.selects (encode i) = true := by
  obtain ⟨hbits, -⟩ := encode_fixedBits i
  rw [i.row_bits] at hbits
  exact beq_iff_eq.mpr hbits

/-- The fields of the word are the operands of the instruction. -/
theorem Instr.row_build_encode (i : Instr) : i.row.build (encode i) = i := by
  cases i with
  | cls => rfl
  | ret => rfl
  | jpAddr addr => exact congrArg Instr.jpAddr (addrOf_encodeNNN _ addr)
  | callAddr addr => exact congrArg Instr.callAddr (addrOf_encodeNNN _ addr)
  | ldIAddr addr => exact congrArg Instr.ldIAddr (addrOf_encodeNNN _ addr)
  | jpV0Addr addr => exact congrArg Instr.jpV0Addr (addrOf_encodeNNN _ addr)
  | seVxKk x kk => exact congrArg₂ Instr.seVxKk (xOf_encodeXKK _ x kk) (kkOf_encodeXKK _ x kk)
  | sneVxKk x kk => exact congrArg₂ Instr.sneVxKk (xOf_encodeXKK _ x kk) (kkOf_encodeXKK _ x kk)
  | ldVxKk x kk => exact congrArg₂ Instr.ldVxKk (xOf_encodeXKK _ x kk) (kkOf_encodeXKK _ x kk)
  | addVxKk x kk => exact congrArg₂ Instr.addVxKk (xOf_encodeXKK _ x kk) (kkOf_encodeXKK _ x kk)
  | rndVxKk x kk => exact congrArg₂ Instr.rndVxKk (xOf_encodeXKK _ x kk) (kkOf_encodeXKK _ x kk)
  | seVxVy x y => exact congrArg₂ Instr.seVxVy (xOf_encodeXYN _ x y _) (yOf_encodeXYN _ x y _)
  | ldVxVy x y => exact congrArg₂ Instr.ldVxVy (xOf_encodeXYN _ x y _) (yOf_encodeXYN _ x y _)
  | orVxVy x y => exact congrArg₂ Instr.orVxVy (xOf_encodeXYN _ x y _) (yOf_encodeXYN _ x y _)
  | andVxVy x y => exact congrArg₂ Instr.andVxVy (xOf_encodeXYN _ x y _) (yOf_encodeXYN _ x y _)
  | xorVxVy x y => exact congrArg₂ Instr.xorVxVy (xOf_encodeXYN _ x y _) (yOf_encodeXYN _ x y _)
  | addVxVy x y => exact congrArg₂ Instr.addVxVy (xOf_encodeXYN _ x y _) (yOf_encodeXYN _ x y _)
  | subVxVy x y => exact congrArg₂ Instr.subVxVy (xOf_encodeXYN _ x y _) (yOf_encodeXYN _ x y _)
  | shrVx x y => exact congrArg₂ Instr.shrVx (xOf_encodeXYN _ x y _) (yOf_encodeXYN _ x y _)
  | subnVxVy x y => exact congrArg₂ Instr.subnVxVy (xOf_encodeXYN _ x y _) (yOf_encodeXYN _ x y _)
  | shlVx x y => exact congrArg₂ Instr.shlVx (xOf_encodeXYN _ x y _) (yOf_encodeXYN _ x y _)
  | sneVxVy x y => exact congrArg₂ Instr.sneVxVy (xOf_encodeXYN _ x y _) (yOf_encodeXYN _ x y _)
  | drwVxVyN x y n =>
    show Instr.drwVxVyN (xOf (encodeXYN 0xD x y n)) (yOf (encodeXYN 0xD x y n)) (nOf (encodeXYN 0xD x y n)) = _
    rw [xOf_encodeXYN, yOf_encodeXYN, nOf_encodeXYN]
  | skpVx x => exact congrArg Instr.skpVx (xOf_encodeXKK _ x _)
  | sknpVx x => exact congrArg Instr.sknpVx (xOf_encodeXKK _ x _)
  | ldVxDt x => exact congrArg Instr.ldVxDt (xOf_encodeXKK _ x _)
  | ldVxK x => exact congrArg Instr.ldVxK (xOf_encodeXKK _ x _)
  | ldDtVx x => exact congrArg Instr.ldDtVx (xOf_encodeXKK _ x _)
  | ldStVx x => exact congrArg Instr.ldStVx (xOf_encodeXKK _ x _)
  | addIVx x => exact congrArg Instr.addIVx (xOf_encodeXKK _ x _)
  | ldFVx x => exact congrArg Instr.ldFVx (xOf_encodeXKK _ x _)
  | ldBVx x => exact congrArg Instr.ldBVx (xOf_encodeXKK _ x _)
  | ldMemVx x => exact congrArg Instr.ldMemVx (xOf_encodeXKK _ x _)
  | ldVxMem x => exact congrArg Instr.ldVxMem (xOf_encodeXKK _ x _)

@[simp] theorem decodeWord_encode (i : Instr) : decodeWord (encode i) = .ok i := by
  rw [decodeWord_of_selects i.row_mem i.row_selects_encode, i.row_build_encode]

/-- Settles O2: the word of `i` is selected by the row of `i`, which builds `i` from the word's fields. -/
theorem decodeInvertsEncode : Obligations.DecodeInvertsEncode := by
  refine ⟨decodeWord_encode, fun i rest => ?bytes⟩
  case bytes =>
    have hword : decodeWord (wordOfBytes (hiByte (encode i)) (loByte (encode i))) = .ok i := by
      rw [wordOfBytes_bytes, decodeWord_encode]
    simp only [encodeBytes, List.cons_append, List.nil_append, decode, hword]

/-! ### From a word to its instruction and back -/

theorem encodeNNN_addrOf {w : Word} {op : BitVec 4} (h : w &&& (0xF000 : Word) = op.setWidth 16 <<< 12) :
    encodeNNN op (addrOf w) = w := by
  unfold encodeNNN
  rw [← h]
  ext k hk
  interval_cases k <;> simp [addrOf]

theorem encodeXKK_xOf_kkOf {w : Word} {op : BitVec 4} (h : w &&& (0xF000 : Word) = op.setWidth 16 <<< 12) :
    encodeXKK op (xOf w) (kkOf w) = w := by
  unfold encodeXKK
  rw [← h]
  ext k hk
  interval_cases k <;> simp [xOf, kkOf]

theorem encodeXYN_xOf_yOf_nOf {w : Word} {op : BitVec 4} (h : w &&& (0xF000 : Word) = op.setWidth 16 <<< 12) :
    encodeXYN op (xOf w) (yOf w) (nOf w) = w := by
  unfold encodeXYN
  rw [← h]
  ext k hk
  interval_cases k <;> simp [xOf, yOf, nOf]

theorem encodeXYN_xOf_yOf {w : Word} {op n : BitVec 4}
    (h : w &&& (0xF00F : Word) = op.setWidth 16 <<< 12 ||| n.setWidth 16) : encodeXYN op (xOf w) (yOf w) n = w := by
  have hop : w &&& (0xF000 : Word) = op.setWidth 16 <<< 12 := by
    rw [show (0xF000 : Word) = 0xF00F &&& 0xF000 from rfl, ← BitVec.and_assoc, h]
    ext k hk
    interval_cases k <;> simp
  have hn : nOf w = n := by
    have hlow : nOf w = nOf (w &&& (0xF00F : Word)) := by
      ext k hk
      interval_cases k <;> simp [nOf]
    rw [hlow, h]
    ext k hk
    interval_cases k <;> simp [nOf]
  rw [← hn, encodeXYN_xOf_yOf_nOf hop]

theorem encodeXKK_xOf {w : Word} {op : BitVec 4} {kk : Byte}
    (h : w &&& (0xF0FF : Word) = op.setWidth 16 <<< 12 ||| kk.setWidth 16) : encodeXKK op (xOf w) kk = w := by
  have hop : w &&& (0xF000 : Word) = op.setWidth 16 <<< 12 := by
    rw [show (0xF000 : Word) = 0xF0FF &&& 0xF000 from rfl, ← BitVec.and_assoc, h]
    ext k hk
    interval_cases k <;> simp
  have hkk : kkOf w = kk := by
    have hlow : kkOf w = kkOf (w &&& (0xF0FF : Word)) := by
      ext k hk
      interval_cases k <;> simp [kkOf]
    rw [hlow, h]
    ext k hk
    interval_cases k <;> simp [kkOf]
  rw [← hkk, encodeXKK_xOf_kkOf hop]

/-- A property of every row is one of each row of spec/30_encoding.md R96. -/
theorem forall_row_iff (P : OpcodeRow → Prop) :
    (∀ r ∈ opcodeTable, P r) ↔
      ((∀ r ∈ opcodeRowsA, P r) ∧ (∀ r ∈ opcodeRowsB, P r)) ∧ (∀ r ∈ opcodeRowsC, P r) ∧ ∀ r ∈ opcodeRowsD, P r := by
  simp only [opcodeTable, List.forall_mem_append, and_assoc]

/-- The instruction a row builds from a word it selects is written as that word. -/
theorem encode_build : ∀ r ∈ opcodeTable, ∀ w : Word, w &&& r.mask = r.fixed → encode (r.build w) = w := by
  rw [forall_row_iff]
  refine ⟨⟨?rowsA, ?rowsB⟩, ?rowsC, ?rowsD⟩
  case rowsA =>
    simp only [opcodeRowsA, List.forall_mem_cons]
    exact ⟨fun w h => h.symm.trans (BitVec.and_allOnes), fun w h => h.symm.trans (BitVec.and_allOnes),
      fun _ h => encodeNNN_addrOf h, fun _ h => encodeNNN_addrOf h, fun _ h => encodeXKK_xOf_kkOf h,
      fun _ h => encodeXKK_xOf_kkOf h, fun _ h => encodeXYN_xOf_yOf h, by simp⟩
  case rowsB =>
    simp only [opcodeRowsB, List.forall_mem_cons]
    exact ⟨fun _ h => encodeXKK_xOf_kkOf h, fun _ h => encodeXKK_xOf_kkOf h, fun _ h => encodeXYN_xOf_yOf h,
      fun _ h => encodeXYN_xOf_yOf h, fun _ h => encodeXYN_xOf_yOf h, fun _ h => encodeXYN_xOf_yOf h,
      fun _ h => encodeXYN_xOf_yOf h, fun _ h => encodeXYN_xOf_yOf h, fun _ h => encodeXYN_xOf_yOf h,
      fun _ h => encodeXYN_xOf_yOf h, fun _ h => encodeXYN_xOf_yOf h, by simp⟩
  case rowsC =>
    simp only [opcodeRowsC, List.forall_mem_cons]
    exact ⟨fun _ h => encodeXYN_xOf_yOf h, fun _ h => encodeNNN_addrOf h, fun _ h => encodeNNN_addrOf h,
      fun _ h => encodeXKK_xOf_kkOf h, fun _ h => encodeXYN_xOf_yOf_nOf h, fun _ h => encodeXKK_xOf h,
      fun _ h => encodeXKK_xOf h, by simp⟩
  case rowsD =>
    simp only [opcodeRowsD, List.forall_mem_cons]
    exact ⟨fun _ h => encodeXKK_xOf h, fun _ h => encodeXKK_xOf h, fun _ h => encodeXKK_xOf h,
      fun _ h => encodeXKK_xOf h, fun _ h => encodeXKK_xOf h, fun _ h => encodeXKK_xOf h,
      fun _ h => encodeXKK_xOf h, fun _ h => encodeXKK_xOf h, fun _ h => encodeXKK_xOf h, by simp⟩

theorem encode_of_decodeWord {w : Word} {i : Instr} (h : decodeWord w = .ok i) : encode i = w := by
  obtain ⟨r, hr, hsel, rfl⟩ := row_of_decodeWord h
  exact encode_build r hr w (beq_iff_eq.mp hsel)

/-- Settles O3: a word that decodes is selected by a row, whose fixed bits and fields together are all of the word. -/
theorem encodeInvertsDecode : Obligations.EncodeInvertsDecode := fun _ _ h => encode_of_decodeWord h

/-! ### The words no row selects -/

theorem decodeWord_error_iff (w : Word) :
    decodeWord w = .error (.unknownOpcode w) ↔ ∀ r ∈ opcodeTable, w &&& r.mask ≠ r.fixed := by
  constructor
  · intro h r hr hsel
    rw [decodeWord_of_selects hr (beq_iff_eq.mpr hsel)] at h
    cases h
  · intro h
    cases hd : decodeWord w with
    | error e => rw [decodeWord_error hd]
    | ok i =>
      obtain ⟨r, hr, hsel, -⟩ := row_of_decodeWord hd
      exact absurd (beq_iff_eq.mp hsel) (h r hr)

/-- Settles O5: the table's rows differ pairwise in a bit that both fix, so the first row found is the only one. -/
theorem tableRowsAreDisjointAndDecide : Obligations.TableRowsAreDisjointAndDecide := by
  refine ⟨rfl, ?disjoint, ?selected, fun w h => (decodeWord_error_iff w).mpr h⟩
  case disjoint =>
    refine opcodeTable_apart.imp fun {r q} hapart w hboth => ?_
    have hq := OpcodeRow.not_both hapart (beq_iff_eq.mpr hboth.1)
    exact Bool.false_ne_true (hq.symm.trans (beq_iff_eq.mpr hboth.2))
  case selected => exact fun r hr w h => decodeWord_of_selects hr (beq_iff_eq.mpr h)

/-! ### Words as numbers -/

theorem field_toNat {m k : Nat} (b : BitVec m) (hfits : m + k ≤ 16) :
    (b.setWidth 16 <<< k).toNat = b.toNat * 2 ^ k := by
  have hb : b.toNat * 2 ^ k < 2 ^ 16 := calc
    b.toNat * 2 ^ k < 2 ^ m * 2 ^ k := Nat.mul_lt_mul_of_pos_right b.isLt (Nat.two_pow_pos k)
    _ = 2 ^ (m + k) := (Nat.pow_add 2 m k).symm
    _ ≤ 2 ^ 16 := Nat.pow_le_pow_right (by decide) hfits
  have hm : b.toNat < 2 ^ 16 := Nat.lt_of_lt_of_le b.isLt (Nat.pow_le_pow_right (by decide) (by omega))
  rw [BitVec.toNat_shiftLeft, BitVec.toNat_setWidth, Nat.mod_eq_of_lt hm, Nat.shiftLeft_eq, Nat.mod_eq_of_lt hb]

/-- Fields that do not overlap add up. -/
theorem toNat_or_low {hi lo : Word} (k : Nat) (hhi : 2 ^ k ∣ hi.toNat) (hlo : lo.toNat < 2 ^ k) :
    (hi ||| lo).toNat = hi.toNat + lo.toNat := by
  obtain ⟨a, ha⟩ := hhi
  rw [BitVec.toNat_or, ha, Nat.two_pow_add_eq_or_of_lt hlo]

theorem encodeNNN_toNat (op : BitVec 4) (a : BitVec 12) : (encodeNNN op a).toNat = 4096 * op.toNat + a.toNat := by
  have hop : (op.setWidth 16 <<< 12).toNat = op.toNat * 2 ^ 12 := field_toNat op (by decide)
  have ha : (a.setWidth 16).toNat = a.toNat := BitVec.toNat_setWidth_of_le (by decide)
  have hlt := a.isLt
  rw [encodeNNN, toNat_or_low 12 (by omega) (by omega), hop, ha]
  omega

theorem encodeXKK_toNat (op : BitVec 4) (x : Reg) (kk : Byte) :
    (encodeXKK op x kk).toNat = 4096 * op.toNat + 256 * x.val + kk.toNat := by
  have hop : (op.setWidth 16 <<< 12).toNat = op.toNat * 2 ^ 12 := field_toNat op (by decide)
  have hx : ((regBits x).setWidth 16 <<< 8).toNat = x.val * 2 ^ 8 := field_toNat (regBits x) (by decide)
  have hkk : (kk.setWidth 16).toNat = kk.toNat := BitVec.toNat_setWidth_of_le (by decide)
  have hxlt := x.isLt
  have hkklt := kk.isLt
  have hhigh := toNat_or_low 12 (hi := op.setWidth 16 <<< 12) (lo := (regBits x).setWidth 16 <<< 8)
    (by omega) (by omega)
  rw [encodeXKK, toNat_or_low 8 (by omega) (by omega), hhigh, hop, hx, hkk]
  omega

theorem encodeXYN_toNat (op : BitVec 4) (x y : Reg) (n : BitVec 4) :
    (encodeXYN op x y n).toNat = 4096 * op.toNat + 256 * x.val + 16 * y.val + n.toNat := by
  have hy : ((regBits y).setWidth 16 <<< 4).toNat = y.val * 2 ^ 4 := field_toNat (regBits y) (by decide)
  have hn : (n.setWidth 16).toNat = n.toNat := BitVec.toNat_setWidth_of_le (by decide)
  have hylt := y.isLt
  have hnlt := n.isLt
  have hlow := toNat_or_low 4 (hi := (regBits y).setWidth 16 <<< 4) (lo := n.setWidth 16) (by omega) (by omega)
  have hkk : encodeXYN op x y n = encodeXKK op x (BitVec.ofNat 8 (16 * y.val + n.toNat)) := by
    rw [encodeXYN, BitVec.or_assoc, encodeXKK]
    congr 1
    apply BitVec.eq_of_toNat_eq
    rw [hlow, hy, hn, BitVec.toNat_setWidth, BitVec.toNat_ofNat]
    omega
  rw [hkk, encodeXKK_toNat, BitVec.toNat_ofNat]
  omega

/-- The operation nibble, bits 15:12 (spec/30_encoding.md R92). -/
def opOf (w : Word) : BitVec 4 := w.extractLsb' 12 4

theorem opOf_toNat (w : Word) : (opOf w).toNat = w.toNat / 4096 := by
  have hw := w.isLt
  simp only [opOf, BitVec.extractLsb'_toNat, Nat.shiftRight_eq_div_pow]
  omega

theorem nOf_toNat (w : Word) : (nOf w).toNat = w.toNat % 16 := rfl

theorem kkOf_toNat (w : Word) : (kkOf w).toNat = w.toNat % 256 := rfl

theorem toNat_and_F000 (w : Word) : (w &&& (0xF000 : Word)).toNat = 4096 * (w.toNat / 4096) := by
  have hw : w &&& (0xF000 : Word) = encodeNNN (opOf w) 0 := by
    ext k hk
    interval_cases k <;> simp [encodeNNN, opOf]
  rw [hw, encodeNNN_toNat, opOf_toNat]
  rfl

theorem toNat_and_F00F (w : Word) : (w &&& (0xF00F : Word)).toNat = 4096 * (w.toNat / 4096) + w.toNat % 16 := by
  have hw : w &&& (0xF00F : Word) = encodeXYN (opOf w) 0 0 (nOf w) := by
    ext k hk
    interval_cases k <;> simp [encodeXYN, opOf, nOf, regBits]
  rw [hw, encodeXYN_toNat, opOf_toNat, nOf_toNat]
  rfl

theorem toNat_and_F0FF (w : Word) : (w &&& (0xF0FF : Word)).toNat = 4096 * (w.toNat / 4096) + w.toNat % 256 := by
  have hw : w &&& (0xF0FF : Word) = encodeXKK (opOf w) 0 (kkOf w) := by
    ext k hk
    interval_cases k <;> simp [encodeXKK, opOf, kkOf, regBits]
  rw [hw, encodeXKK_toNat, opOf_toNat, kkOf_toNat]
  rfl

theorem toNat_and_FFFF (w : Word) : (w &&& (0xFFFF : Word)).toNat = w.toNat :=
  congrArg BitVec.toNat (BitVec.and_allOnes (x := w))

/-- Settles O4: read as numbers, the conditions of the 34 rows leave out exactly the listed families, one operation
nibble after the other. -/
theorem unknownWordsAreTheListedFamilies : Obligations.UnknownWordsAreTheListedFamilies := by
  intro w
  have hop : w.toNat / 4096 < 16 := by have := w.isLt; omega
  rw [decodeWord_error_iff, forall_row_iff]
  simp only [opcodeRowsA, opcodeRowsB, opcodeRowsC, opcodeRowsD, List.forall_mem_cons, ne_eq,
    ← BitVec.toNat_inj, toNat_and_F000, toNat_and_F00F, toNat_and_F0FF, toNat_and_FFFF]
  interval_cases hnib : w.toNat / 4096 <;> simp <;> omega

/-- Settles O1: ten of the words are the encodings of the instructions named, and no row selects the other four. -/
theorem workedEncodingsDecode : Obligations.WorkedEncodingsDecode :=
  ⟨decodeWord_encode (.ldVxKk 0 5), decodeWord_encode (.addVxKk 0 3), decodeWord_encode (.ldIAddr 0),
    decodeWord_encode (.drwVxVyN 0 0 5), decodeWord_encode (.drwVxVyN 0 1 5), decodeWord_encode (.addVxVy 10 11),
    (decodeWord_error_iff _).mpr (by decide), decodeWord_encode (.seVxVy 1 2),
    (decodeWord_error_iff _).mpr (by decide), decodeWord_encode .cls, (decodeWord_error_iff _).mpr (by decide),
    (decodeWord_error_iff _).mpr (by decide), decodeWord_encode (.addIVx 3), decodeWord_encode (.skpVx 1)⟩

end Sys2Proof
end

