-- ==== Sys2Proof/Proofs/Meanings.lean ====
section
/-! The meaning of each instruction in the named operations of the state, one equation per way it can end. The skips,
the register loads and the logic operations have theirs in Proofs/Skips.lean and Proofs/RegisterAlu.lean. -/

namespace Sys2Proof.Machine

/-! ### Faults -/

/-- The state of fault entry, with the opcode as a number. -/
theorem State.raiseIn_eq_faultedWith (s : State) {i : Instr} {opcode : Nat} (h : (encode i).toNat = opcode)
    (c : Cause) (info : Nat) : s.raiseIn i ⟨c, info⟩ = s.faultedWith c.code opcode info := by
  subst h
  rw [State.raiseIn_eq, State.faultedWith, BitVec.ofNat_toNat, BitVec.setWidth_eq]

/-! ### Arithmetic, shifts and random -/

theorem exec_addVxVy (x y : Reg) (s : State) :
    exec (.addVxVy x y) s =
      .next ((s.setReg vf (carryFlag ((s.reg x).toNat + (s.reg y).toNat))).setReg x
        (BitVec.ofNat 8 ((s.reg x).toNat + (s.reg y).toNat))) := rfl

theorem exec_subVxVy (x y : Reg) (s : State) :
    let t := s.setReg vf (greaterFlag (s.reg x) (s.reg y))
    exec (.subVxVy x y) s = .next (t.setReg x (t.reg x - t.reg y)) := rfl

theorem exec_subnVxVy (x y : Reg) (s : State) :
    let t := s.setReg vf (greaterFlag (s.reg y) (s.reg x))
    exec (.subnVxVy x y) s = .next (t.setReg x (t.reg y - t.reg x)) := rfl

theorem exec_shrVx (x y : Reg) (s : State) :
    let t := s.setReg vf (lowBitFlag (s.reg x))
    exec (.shrVx x y) s = .next (t.setReg x (t.reg x >>> 1)) := rfl

theorem exec_shlVx (x y : Reg) (s : State) :
    let t := s.setReg vf (highBitFlag (s.reg x))
    exec (.shlVx x y) s = .next (t.setReg x (t.reg x <<< 1)) := rfl

theorem exec_rndVxKk (x : Reg) (kk : Byte) (s : State) :
    exec (.rndVxKk x kk) s = .next ((s.setReg x (Config.draw8 s.draws &&& kk)).tookDraw) := rfl

/-! ### Control transfer -/

theorem exec_jpAddr (addr : BitVec 12) (s : State) : exec (.jpAddr addr) s = .next (s.setPc (zextAddr addr)) := rfl

theorem exec_jpV0Addr (addr : BitVec 12) (s : State) :
    exec (.jpV0Addr addr) s = .next (s.setPc (zextAddr addr + zextByte (s.reg 0))) := rfl

theorem exec_ret_of_pos {s : State} (h : 0 < s.sp.val) : exec .ret s = .next (s.pop h) := dif_pos h

theorem exec_ret_of_empty {s : State} (h : ¬ 0 < s.sp.val) :
    exec .ret s = .next (s.raiseIn .ret ⟨.stackUnderflow, 0⟩) := dif_neg h

theorem exec_callAddr_of_room (addr : BitVec 12) {s : State} (h : s.sp.val < 16) :
    exec (.callAddr addr) s = .next ((s.push h s.pc).setPc (zextAddr addr)) := dif_pos h

theorem exec_callAddr_of_full (addr : BitVec 12) {s : State} (h : ¬ s.sp.val < 16) :
    exec (.callAddr addr) s = .next (s.raiseIn (.callAddr addr) ⟨.stackOverflow, 0⟩) := dif_neg h

/-! ### The index register and memory -/

theorem exec_ldIAddr (addr : BitVec 12) (s : State) :
    exec (.ldIAddr addr) s = .next (s.setIndex (zextAddr addr)) := rfl

theorem exec_ldFVx (x : Reg) (s : State) : exec (.ldFVx x) s = .next (s.setIndex (zextByte (s.reg x) * 5)) := rfl

theorem exec_addIVx_of_fits (x : Reg) {s : State} (h : ¬ s.i.toNat + (s.reg x).toNat > 0xFFFF) :
    exec (.addIVx x) s = .next (s.setIndex (BitVec.ofNat 16 (s.i.toNat + (s.reg x).toNat))) := if_neg h

theorem exec_addIVx_of_overflow (x : Reg) {s : State} (h : s.i.toNat + (s.reg x).toNat > 0xFFFF) :
    exec (.addIVx x) s =
      .next (s.raiseIn (.addIVx x) ⟨.indexOverflow, s.i.toNat + (s.reg x).toNat⟩) := if_pos h

theorem State.rangeFault_of_fits {s : State} {last : Nat} (h : s.i.toNat + last ≤ 0xFFF) :
    s.rangeFault last = none := (s.rangeFault_none_iff last).mpr h

theorem State.rangeFault_of_outside {s : State} {last : Nat} (h : 0xFFF < s.i.toNat + last) :
    s.rangeFault last = some ⟨.memOutOfRange, max s.i.toNat 0x1000⟩ := if_pos h

theorem exec_ldBVx_of_fits (x : Reg) {s : State} (h : s.i.toNat + 2 ≤ 0xFFF) :
    exec (.ldBVx x) s =
      .next (s.storeBytes s.i.toNat [bcdHundreds (s.reg x), bcdTens (s.reg x), bcdOnes (s.reg x)]) := by
  simp only [exec, execLdBVx, State.rangeFault_of_fits h, State.ea, Nat.add_zero]

theorem exec_ldBVx_of_outside (x : Reg) {s : State} (h : 0xFFF < s.i.toNat + 2) :
    exec (.ldBVx x) s = .next (s.raiseIn (.ldBVx x) ⟨.memOutOfRange, max s.i.toNat 0x1000⟩) := by
  simp only [exec, execLdBVx, State.rangeFault_of_outside h, faulted_eq]

theorem exec_ldMemVx_of_fits {x : Reg} {s : State} (h : s.i.toNat + x.val ≤ 0xFFF) :
    exec (.ldMemVx x) s = .next (s.storeBytes s.i.toNat (s.v.toList.take (x.val + 1))) := by
  simp only [exec, execLdMemVx, State.rangeFault_of_fits h, State.ea, Nat.add_zero]

theorem exec_ldMemVx_of_outside {x : Reg} {s : State} (h : 0xFFF < s.i.toNat + x.val) :
    exec (.ldMemVx x) s = .next (s.raiseIn (.ldMemVx x) ⟨.memOutOfRange, max s.i.toNat 0x1000⟩) := by
  simp only [exec, execLdMemVx, State.rangeFault_of_outside h, faulted_eq]

theorem exec_ldVxMem_of_fits {x : Reg} {s : State} (h : s.i.toNat + x.val ≤ 0xFFF) :
    exec (.ldVxMem x) s = .next (s.loadRegs s.i.toNat (x.val + 1)) := by
  simp only [exec, execLdVxMem, State.rangeFault_of_fits h, State.ea, Nat.add_zero]

theorem exec_ldVxMem_of_outside {x : Reg} {s : State} (h : 0xFFF < s.i.toNat + x.val) :
    exec (.ldVxMem x) s = .next (s.raiseIn (.ldVxMem x) ⟨.memOutOfRange, max s.i.toNat 0x1000⟩) := by
  simp only [exec, execLdVxMem, State.rangeFault_of_outside h, faulted_eq]

/-! ### The display -/

theorem exec_cls (s : State) : exec .cls s = .next s.clearDisplay := rfl

/-- What a `DRW` begins to draw on: the registers with `V[0xF]` cleared, and the display (spec/43_display.md R192). -/
def State.canvas (s : State) : Canvas := { v := s.v.set vf 0, disp := s.disp }

theorem exec_drwVxVyN_of_ok {x y : Reg} {n : BitVec 4} {s : State} {c : Canvas}
    (h : drawRows s x y n.toNat s.canvas = .ok c) :
    exec (.drwVxVyN x y n) s = .next { s with v := c.v, disp := c.disp, df := true } := by
  rw [State.canvas] at h
  simp only [exec, execDrwVxVyN, h]

theorem exec_drwVxVyN_of_error {x y : Reg} {n : BitVec 4} {s : State} {r : Raised}
    (h : drawRows s x y n.toNat s.canvas = .error r) :
    exec (.drwVxVyN x y n) s = .next (s.raiseIn (.drwVxVyN x y n) r) := by
  rw [State.canvas] at h
  simp only [exec, execDrwVxVyN, h, faulted_eq]

/-! ### Timers and keyboard -/

theorem exec_ldVxDt (x : Reg) (s : State) : exec (.ldVxDt x) s = .next (s.setReg x s.dt) := rfl

theorem exec_ldDtVx (x : Reg) (s : State) : exec (.ldDtVx x) s = .next (s.setDt (s.reg x)) := rfl

theorem exec_ldStVx (x : Reg) (s : State) : exec (.ldStVx x) s = .next (s.setSt (s.reg x)) := rfl

theorem exec_ldVxK_wired (x : Reg) {s : State} (hw : s.cfg.keyboardWired = true) :
    exec (.ldVxK x) s = .next (s.beginWait x) := if_pos hw

theorem exec_ldVxK_unwired (x : Reg) {s : State} (hw : ¬ s.cfg.keyboardWired = true) :
    exec (.ldVxK x) s = .next s := if_neg hw

theorem exec_skpVx_wired (x : Reg) {s : State} (hw : s.cfg.keyboardWired = true) :
    exec (.skpVx x) s = keySkip (.skpVx x) x true s := if_pos hw

theorem exec_skpVx_unwired (x : Reg) {s : State} (hw : ¬ s.cfg.keyboardWired = true) :
    exec (.skpVx x) s = .next s := if_neg hw

theorem exec_sknpVx_wired (x : Reg) {s : State} (hw : s.cfg.keyboardWired = true) :
    exec (.sknpVx x) s = keySkip (.sknpVx x) x false s := if_pos hw

theorem exec_sknpVx_unwired (x : Reg) {s : State} (hw : ¬ s.cfg.keyboardWired = true) :
    exec (.sknpVx x) s = .next s := if_neg hw

theorem keySkip_of_key (i : Instr) {x : Reg} (want : Bool) {s : State} (h : keyWellFormed (s.reg x) = true) :
    keySkip i x want s =
      .next (s.tookPoll.skipIf (Config.isPressed s.polls ((s.reg x).setWidth 4) == want)) := if_pos h

theorem keySkip_of_noKey (i : Instr) {x : Reg} (want : Bool) {s : State} (h : ¬ keyWellFormed (s.reg x) = true) :
    keySkip i x want s = .next (s.raiseIn i ⟨.keyOutOfRange, (s.reg x).toNat⟩) := if_neg h

end Sys2Proof.Machine
end

