-- ==== Sys2Proof/Proofs/Effects.lean ====
section
/-! What an instruction can do, said once: `Effect` lists the ways a handler can end, with the instructions each belongs
to. The statements on which instruction can change which piece of state (spec/10_state.md section 9) and on which can
fault (spec/60_exceptions.md section 3) are read off it. -/

namespace Sys2Proof.Machine

/-! ### The ways an instruction can end -/

/-- The general registers an instruction may write (spec/10_state.md section 9). -/
def MayWrite (i : Instr) (r : Reg) : Prop :=
  match i with
  | .ldVxKk x _ | .addVxKk x _ | .ldVxVy x _ | .orVxVy x _ | .andVxVy x _ | .xorVxVy x _ => r = x
  | .rndVxKk x _ | .ldVxDt x => r = x
  | .addVxVy x _ | .subVxVy x _ | .shrVx x _ | .subnVxVy x _ | .shlVx x _ => r = x ∨ r = vf
  | .drwVxVyN _ _ _ => r = vf
  | .ldVxMem x => r ≤ x
  | .cls | .ret | .jpAddr _ | .callAddr _ | .seVxKk _ _ | .sneVxKk _ _ | .seVxVy _ _ | .sneVxVy _ _ => False
  | .ldIAddr _ | .jpV0Addr _ | .skpVx _ | .sknpVx _ | .ldVxK _ | .ldDtVx _ | .ldStVx _ | .addIVx _ => False
  | .ldFVx _ | .ldBVx _ | .ldMemVx _ => False

/-- The causes an instruction may raise (spec/60_exceptions.md section 3). -/
inductive Raises (s : State) : Instr → Cause → Prop
  | ret : Raises s .ret .stackUnderflow
  | call (a : BitVec 12) : Raises s (.callAddr a) .stackOverflow
  | spriteRow (x y : Reg) (n : BitVec 4) : Raises s (.drwVxVyN x y n) .memOutOfRange
  | spriteCell (x y : Reg) (n : BitVec 4) : Raises s (.drwVxVyN x y n) .displayOutOfRange
  | addIndex (x : Reg) : Raises s (.addIVx x) .indexOverflow
  | bcd (x : Reg) : Raises s (.ldBVx x) .memOutOfRange
  | blockStore (x : Reg) : Raises s (.ldMemVx x) .memOutOfRange
  | blockLoad (x : Reg) : Raises s (.ldVxMem x) .memOutOfRange
  | keyPressed (x : Reg) (hw : s.cfg.keyboardWired = true) : Raises s (.skpVx x) .keyOutOfRange
  | keyNotPressed (x : Reg) (hw : s.cfg.keyboardWired = true) : Raises s (.sknpVx x) .keyOutOfRange

/-- The states an instruction may leave when it begins with `s`: the named operation applied, the instructions it
belongs to, and the bounds its arguments meet. -/
inductive Effect (s : State) (i : Instr) : State → Prop
  | nothing : Effect s i s
  | fault (r : Raised) (hr : Raises s i r.cause) : Effect s i (s.raiseIn i r)
  | registers (v : Vector Byte 16) (hv : ∀ r : Reg, v[r] ≠ s.v[r] → MayWrite i r) : Effect s i { s with v := v }
  | random (x : Reg) (kk b : Byte) (hi : i = .rndVxKk x kk) : Effect s i (s.setReg x b).tookDraw
  | jump (w : Word) (hw : w.toNat ≤ 0x10FE) (hi : ∃ a, i = .jpAddr a ∨ i = .jpV0Addr a) : Effect s i (s.setPc w)
  | skip (c : Bool) (hi : (∃ x k, i = .seVxKk x k ∨ i = .sneVxKk x k) ∨ ∃ x y, i = .seVxVy x y ∨ i = .sneVxVy x y) :
      Effect s i (s.skipIf c)
  | call (a : BitVec 12) (hi : i = .callAddr a) (h : s.sp.val < 16) : Effect s i ((s.push h s.pc).setPc (zextAddr a))
  | ret (hi : i = .ret) (h : 0 < s.sp.val) : Effect s i (s.pop h)
  | clear (hi : i = .cls) : Effect s i s.clearDisplay
  | sprite (x y : Reg) (n : BitVec 4) (hi : i = .drwVxVyN x y n) (c : Canvas)
      (hv : ∀ r : Reg, r ≠ vf → c.v[r] = s.v[r]) : Effect s i { s with v := c.v, disp := c.disp, df := true }
  | poll (hw : s.cfg.keyboardWired = true) (c : Bool) (hi : ∃ x, i = .skpVx x ∨ i = .sknpVx x) :
      Effect s i (s.tookPoll.skipIf c)
  | await (hw : s.cfg.keyboardWired = true) (x : Reg) (hi : i = .ldVxK x) : Effect s i (s.beginWait x)
  | delay (x : Reg) (hi : i = .ldDtVx x) (b : Byte) : Effect s i (s.setDt b)
  | sound (x : Reg) (hi : i = .ldStVx x) (b : Byte) : Effect s i (s.setSt b)
  | index (w : Word) (hi : (∃ a, i = .ldIAddr a) ∨ (∃ x, i = .addIVx x) ∨ ∃ x, i = .ldFVx x) :
      Effect s i (s.setIndex w)
  | store (bytes : List Byte) (hroom : s.i.toNat + bytes.length ≤ 4096)
      (hi : (∃ x, i = .ldBVx x) ∨ ∃ x, i = .ldMemVx x) : Effect s i (s.storeBytes s.i.toNat bytes)

/-! ### Every instruction ends in one of them -/

theorem Effect.setReg {s : State} {i : Instr} (x : Reg) (b : Byte) (hx : MayWrite i x) : Effect s i (s.setReg x b) :=
  .registers (s.setReg x b).v fun r hr => by
    by_cases hrx : r = x
    · exact hrx ▸ hx
    · exact absurd ((s.reg_setReg x r b).trans (if_neg hrx)) hr

theorem Effect.setFlagReg {s : State} {i : Instr} (x : Reg) (f b : Byte) (hx : ∀ r, r = x ∨ r = vf → MayWrite i r) :
    Effect s i ((s.setReg vf f).setReg x b) :=
  .registers ((s.setReg vf f).setReg x b).v fun r hr => hx r <| by
    by_contra hne
    obtain ⟨hrx, hrf⟩ := not_or.mp hne
    have hsame : ((s.setReg vf f).setReg x b).reg r = s.reg r := by
      rw [State.reg_setReg, if_neg hrx, State.reg_setReg, if_neg hrf]
    exact hr hsame

theorem zextAddr_toNat (a : BitVec 12) : (zextAddr a).toNat = a.toNat :=
  BitVec.toNat_setWidth_of_le (by decide)

theorem zextByte_toNat (b : Byte) : (zextByte b).toNat = b.toNat :=
  BitVec.toNat_setWidth_of_le (by decide)

theorem jpV0_target_toNat (a : BitVec 12) (b : Byte) : (zextAddr a + zextByte b).toNat = a.toNat + b.toNat := by
  have ha := a.isLt
  have hb := b.isLt
  rw [BitVec.toNat_add, zextAddr_toNat, zextByte_toNat]
  omega

/-- What every element of a fold can raise is what the fold can raise. -/
theorem foldlM_raises {α : Type} {f : Canvas → α → Except Raised Canvas} {Q : Raised → Prop}
    (hf : ∀ c a r, f c a = .error r → Q r) (l : List α) (c : Canvas) (r : Raised) (h : l.foldlM f c = .error r) :
    Q r := by
  induction l generalizing c with
  | nil => cases h
  | cons a l ih =>
    rw [List.foldlM_cons] at h
    cases hc : f c a with
    | error e =>
      rw [hc] at h
      exact Except.error.inj h ▸ hf c a e hc
    | ok d =>
      rw [hc] at h
      exact ih d h

/-- A sprite raises a fault of a row or of a cell. -/
theorem drawRows_error_cause {s : State} {x y : Reg} {n : Nat} {c : Canvas} {r : Raised}
    (h : drawRows s x y n c = .error r) : r.cause = .memOutOfRange ∨ r.cause = .displayOutOfRange := by
  refine foldlM_raises (Q := fun r => r.cause = .memOutOfRange ∨ r.cause = .displayOutOfRange) ?row _ _ r h
  case row =>
    intro d cy e he
    rcases Nat.lt_or_ge 0xFFF (s.ea cy) with hout | hin
    · rw [s.memRead_error hout] at he
      exact .inl (congrArg Raised.cause (Except.error.inj he).symm)
    · rw [s.memRead_ok hin] at he
      refine .inr (foldlM_raises (Q := fun r => r.cause = .displayOutOfRange) ?_ _ _ e he)
      intro d' cx e' he'
      split at he'
      · rw [(drawPixel_error he').2]
      · cases he'

theorem keySkip_effect {s : State} {i : Instr} {x : Reg} (want : Bool) (hw : s.cfg.keyboardWired = true)
    (hi : i = .skpVx x ∨ i = .sknpVx x) : ∃ t, keySkip i x want s = .next t ∧ Effect s i t := by
  by_cases hkey : keyWellFormed (s.reg x) = true
  · exact ⟨_, keySkip_of_key i want hkey, .poll hw _ ⟨x, hi⟩⟩
  · refine ⟨_, keySkip_of_noKey i want hkey, .fault _ ?_⟩
    rcases hi with rfl | rfl
    · exact .keyPressed x hw
    · exact .keyNotPressed x hw

theorem exec_effect (i : Instr) (s : State) : ∃ t, exec i s = .next t ∧ Effect s i t := by
  cases i with
  | cls => exact ⟨_, exec_cls s, .clear rfl⟩
  | ret =>
    by_cases hsp : 0 < s.sp.val
    · exact ⟨_, exec_ret_of_pos hsp, .ret rfl hsp⟩
    · exact ⟨_, exec_ret_of_empty hsp, .fault _ .ret⟩
  | jpAddr addr =>
    have hlt := addr.isLt
    exact ⟨_, exec_jpAddr addr s, .jump _ (by rw [zextAddr_toNat]; omega) ⟨addr, .inl rfl⟩⟩
  | callAddr addr =>
    by_cases hsp : s.sp.val < 16
    · exact ⟨_, exec_callAddr_of_room addr hsp, .call addr rfl hsp⟩
    · exact ⟨_, exec_callAddr_of_full addr hsp, .fault _ (.call addr)⟩
  | seVxKk x kk => exact ⟨_, exec_seVxKk x kk s, .skip _ (.inl ⟨x, kk, .inl rfl⟩)⟩
  | sneVxKk x kk => exact ⟨_, exec_sneVxKk x kk s, .skip _ (.inl ⟨x, kk, .inr rfl⟩)⟩
  | seVxVy x y => exact ⟨_, exec_seVxVy x y s, .skip _ (.inr ⟨x, y, .inl rfl⟩)⟩
  | sneVxVy x y => exact ⟨_, exec_sneVxVy x y s, .skip _ (.inr ⟨x, y, .inr rfl⟩)⟩
  | ldVxKk x kk => exact ⟨_, exec_ldVxKk x kk s, .setReg x _ rfl⟩
  | addVxKk x kk => exact ⟨_, exec_addVxKk x kk s, .setReg x _ rfl⟩
  | ldVxVy x y => exact ⟨_, exec_ldVxVy x y s, .setReg x _ rfl⟩
  | orVxVy x y => exact ⟨_, exec_orVxVy x y s, .setReg x _ rfl⟩
  | andVxVy x y => exact ⟨_, exec_andVxVy x y s, .setReg x _ rfl⟩
  | xorVxVy x y => exact ⟨_, exec_xorVxVy x y s, .setReg x _ rfl⟩
  | addVxVy x y => exact ⟨_, exec_addVxVy x y s, .setFlagReg x _ _ fun _ hr => hr⟩
  | subVxVy x y => exact ⟨_, exec_subVxVy x y s, .setFlagReg x _ _ fun _ hr => hr⟩
  | shrVx x y => exact ⟨_, exec_shrVx x y s, .setFlagReg x _ _ fun _ hr => hr⟩
  | subnVxVy x y => exact ⟨_, exec_subnVxVy x y s, .setFlagReg x _ _ fun _ hr => hr⟩
  | shlVx x y => exact ⟨_, exec_shlVx x y s, .setFlagReg x _ _ fun _ hr => hr⟩
  | ldIAddr addr => exact ⟨_, exec_ldIAddr addr s, .index _ (.inl ⟨addr, rfl⟩)⟩
  | jpV0Addr addr =>
    have hlt := addr.isLt
    have hv := (s.reg 0).isLt
    exact ⟨_, exec_jpV0Addr addr s, .jump _ (by rw [jpV0_target_toNat]; omega) ⟨addr, .inr rfl⟩⟩
  | rndVxKk x kk => exact ⟨_, exec_rndVxKk x kk s, .random x kk _ rfl⟩
  | drwVxVyN x y n =>
    cases hdraw : drawRows s x y n.toNat s.canvas with
    | ok c =>
      refine ⟨_, exec_drwVxVyN_of_ok hdraw, .sprite x y n rfl c fun r hr => ?_⟩
      rw [(drawRows_regs hdraw).1 r hr]
      exact (CanvasRegs.start s).1 r hr
    | error r =>
      refine ⟨_, exec_drwVxVyN_of_error hdraw, .fault r ?_⟩
      rcases drawRows_error_cause hdraw with hc | hc
      · exact hc ▸ .spriteRow x y n
      · exact hc ▸ .spriteCell x y n
  | skpVx x =>
    by_cases hw : s.cfg.keyboardWired = true
    · rw [exec_skpVx_wired x hw]
      exact keySkip_effect true hw (.inl rfl)
    · exact ⟨_, exec_skpVx_unwired x hw, .nothing⟩
  | sknpVx x =>
    by_cases hw : s.cfg.keyboardWired = true
    · rw [exec_sknpVx_wired x hw]
      exact keySkip_effect false hw (.inr rfl)
    · exact ⟨_, exec_sknpVx_unwired x hw, .nothing⟩
  | ldVxDt x => exact ⟨_, exec_ldVxDt x s, .setReg x _ rfl⟩
  | ldVxK x =>
    by_cases hw : s.cfg.keyboardWired = true
    · exact ⟨_, exec_ldVxK_wired x hw, .await hw x rfl⟩
    · exact ⟨_, exec_ldVxK_unwired x hw, .nothing⟩
  | ldDtVx x => exact ⟨_, exec_ldDtVx x s, .delay x rfl _⟩
  | ldStVx x => exact ⟨_, exec_ldStVx x s, .sound x rfl _⟩
  | addIVx x =>
    by_cases hsum : s.i.toNat + (s.reg x).toNat > 0xFFFF
    · exact ⟨_, exec_addIVx_of_overflow x hsum, .fault _ (.addIndex x)⟩
    · exact ⟨_, exec_addIVx_of_fits x hsum, .index _ (.inr (.inl ⟨x, rfl⟩))⟩
  | ldFVx x => exact ⟨_, exec_ldFVx x s, .index _ (.inr (.inr ⟨x, rfl⟩))⟩
  | ldBVx x =>
    rcases Nat.lt_or_ge 0xFFF (s.i.toNat + 2) with hout | hfit
    · exact ⟨_, exec_ldBVx_of_outside x hout, .fault _ (.bcd x)⟩
    · exact ⟨_, exec_ldBVx_of_fits x hfit, .store _ (Nat.succ_le_succ hfit) (.inl ⟨x, rfl⟩)⟩
  | ldMemVx x =>
    rcases Nat.lt_or_ge 0xFFF (s.i.toNat + x.val) with hout | hfit
    · exact ⟨_, exec_ldMemVx_of_outside hout, .fault _ (.blockStore x)⟩
    · refine ⟨_, exec_ldMemVx_of_fits hfit, .store _ ?_ (.inr ⟨x, rfl⟩)⟩
      have hlen := List.length_take_le (x.val + 1) s.v.toList
      omega
  | ldVxMem x =>
    rcases Nat.lt_or_ge 0xFFF (s.i.toNat + x.val) with hout | hfit
    · exact ⟨_, exec_ldVxMem_of_outside hout, .fault _ (.blockLoad x)⟩
    · refine ⟨_, exec_ldVxMem_of_fits hfit, .registers (s.loadRegs s.i.toNat (x.val + 1)).v fun r hr => ?_⟩
      by_contra hrx
      have hr' : ¬ r.val < x.val + 1 := fun hlt => hrx (Nat.le_of_lt_succ hlt)
      exact hr ((s.reg_loadRegs _ _ r).trans (if_neg hr'))

theorem effect_of_exec {i : Instr} {s t : State} (h : exec i s = .next t) : Effect s i t := by
  obtain ⟨u, hu, heff⟩ := exec_effect i s
  exact Host.Outcome.next.inj (hu.symm.trans h) ▸ heff

/-- Settles O11: every instruction has an effect, and every other event is one update. -/
theorem everyInstructionAndEventAnswersANextState : Obligations.EveryInstructionAndEventAnswersANextState := by
  have hexec : ∀ (i : Instr) (s : State), ∃ t, exec i s = .next t := fun i s =>
    let ⟨t, ht, _⟩ := exec_effect i s
    ⟨t, ht⟩
  refine ⟨hexec, fun e s => ?event⟩
  case event =>
    cases e with
    | reset => exact ⟨_, rfl⟩
    | load bytes => exact ⟨_, rfl⟩
    | consumeRedraw => exact ⟨_, rfl⟩
    | key k => exact ⟨_, rfl⟩
    | timerTick => exact ⟨_, rfl⟩
    | step =>
      show ∃ t, step s = .next t
      cases hs : s.status with
      | stopped => exact ⟨s, step_stopped hs⟩
      | blocked => exact ⟨s, step_blocked hs⟩
      | running =>
        cases hf : s.fetch with
        | error t => exact ⟨t, step_faulted hs hf⟩
        | ok p =>
          rw [step_fetched hs hf]
          exact hexec _ _

/-! ### Which instruction changes what -/

/-- Settles O16: of the ways an instruction can end, three write registers, and those it may write only. -/
theorem registersChangeOnlyWhereTheTableSays : Obligations.RegistersChangeOnlyWhereTheTableSays := by
  intro i s t r h hne
  cases effect_of_exec h with
  | registers v hv => exact hv r hne
  | random x kk b hi =>
    subst hi
    show r = x
    by_contra hrx
    exact hne ((s.reg_setReg x r b).trans (if_neg hrx))
  | sprite x y n hi c hv =>
    subst hi
    show r = vf
    by_contra hrf
    exact hne (hv r hrf)
  | skip c hi => exact absurd (congrArg (·[r]) (s.skipIf_v c)) hne
  | poll hw c hi => exact absurd (congrArg (·[r]) (s.tookPoll.skipIf_v c)) hne
  | nothing | fault | jump | call | ret | clear | await | delay | sound | index | store => exact absurd rfl hne

/-- Settles O17: each way an instruction can end names its instructions and leaves the other fields as they were. -/
theorem onlyTheNamedInstructionsWrite : Obligations.OnlyTheNamedInstructionsWrite := by
  intro i s t h
  cases effect_of_exec h with
  | nothing | fault | registers => simp [State.byte]
  | random x kk b hi => simp [State.byte, hi]
  | jump w hw hi => obtain ⟨a, rfl | rfl⟩ := hi <;> simp [State.byte]
  | skip c hi => obtain ⟨x, k, rfl | rfl⟩ | ⟨x, y, rfl | rfl⟩ := hi <;> simp [State.byte]
  | call a hi hroom => simp [State.byte, hi]
  | ret hi hpos => simp [State.byte, hi]
  | clear hi => simp [State.byte, hi]
  | sprite x y n hi c hv => simp [State.byte, hi]
  | poll hw c hi => obtain ⟨x, rfl | rfl⟩ := hi <;> simp [State.byte, hw]
  | await hw x hi => simp [State.byte, hi, hw]
  | delay x hi b => simp [State.byte, hi]
  | sound x hi b => simp [State.byte, hi]
  | index w hi => obtain ⟨a, rfl⟩ | ⟨x, rfl⟩ | ⟨x, rfl⟩ := hi <;> simp [State.byte]
  | store bytes hroom hi => simp [hi]

/-- Settles O19: the fault is the one way an instruction can end that writes `ERR`. -/
theorem onlyTheListedInstructionsFault : Obligations.OnlyTheListedInstructionsFault := by
  intro i s t hsafe h hne
  cases effect_of_exec h with
  | fault r hr =>
    refine ⟨rfl, rfl, ?cause⟩
    obtain ⟨cause, info⟩ := r
    cases hr with
    | ret => exact .inl ⟨rfl, rfl⟩
    | call a => exact .inr (.inl ⟨⟨a, rfl⟩, rfl⟩)
    | spriteRow x y n => exact .inr (.inr (.inl ⟨⟨x, y, n, rfl⟩, .inl rfl⟩))
    | spriteCell x y n => exact .inr (.inr (.inl ⟨⟨x, y, n, rfl⟩, .inr rfl⟩))
    | addIndex x => exact .inr (.inr (.inr (.inl ⟨⟨x, rfl⟩, rfl⟩)))
    | bcd x => exact .inr (.inr (.inr (.inr (.inl ⟨⟨x, .inl rfl⟩, rfl⟩))))
    | blockStore x => exact .inr (.inr (.inr (.inr (.inl ⟨⟨x, .inr (.inl rfl)⟩, rfl⟩))))
    | blockLoad x => exact .inr (.inr (.inr (.inr (.inl ⟨⟨x, .inr (.inr rfl)⟩, rfl⟩))))
    | keyPressed x hw => exact .inr (.inr (.inr (.inr (.inr ⟨⟨x, .inl rfl⟩, hw, rfl⟩))))
    | keyNotPressed x hw => exact .inr (.inr (.inr (.inr (.inr ⟨⟨x, .inr rfl⟩, hw, rfl⟩))))
  | skip c hi => exact absurd (s.skipIf_err c) hne
  | poll hw c hi => exact absurd (s.tookPoll.skipIf_err c) hne
  | nothing | registers | random | jump | call | ret | clear | sprite | await | delay | sound | index | store =>
    exact absurd rfl hne

end Sys2Proof.Machine
end

