-- ==== Sys2Proof/Proofs/Steps.lean ====
section
/-! The step (spec/50_interfaces.md R231, R232) and the fault record (spec/60_exceptions.md R268, R270). -/

namespace Sys2Proof.Machine

/-! ### The fetched word as a number -/

theorem wordOfBytes_eq_ofNat (hi lo : Byte) :
    wordOfBytes hi lo = BitVec.ofNat 16 (256 * hi.toNat + lo.toNat) := by
  have hhi : (hi.setWidth 16 <<< 8).toNat = hi.toNat * 2 ^ 8 := field_toNat hi (by decide)
  have hlo : (lo.setWidth 16).toNat = lo.toNat := BitVec.toNat_setWidth_of_le (by decide)
  have hhilt := hi.isLt
  have hlolt := lo.isLt
  apply BitVec.eq_of_toNat_eq
  rw [wordOfBytes, toNat_or_low 8 (by omega) (by omega), hhi, hlo, BitVec.toNat_ofNat]
  omega

theorem State.opcodeAt_eq (s : State) :
    s.opcodeAt = BitVec.ofNat 16 (256 * (s.byte s.pc.toNat).toNat + (s.byte (s.pc.toNat + 1)).toNat) :=
  wordOfBytes_eq_ofNat _ _

theorem State.opcodeAt_toNat (s : State) :
    s.opcodeAt.toNat = 256 * (s.byte s.pc.toNat).toNat + (s.byte (s.pc.toNat + 1)).toNat := by
  have hhi := (s.byte s.pc.toNat).isLt
  have hlo := (s.byte (s.pc.toNat + 1)).isLt
  rw [s.opcodeAt_eq, BitVec.toNat_ofNat]
  omega

theorem State.opcodeAt_eq_of_bytes {s : State} {w : Word}
    (h : w.toNat = 256 * (s.byte s.pc.toNat).toNat + (s.byte (s.pc.toNat + 1)).toNat) : s.opcodeAt = w :=
  BitVec.eq_of_toNat_eq (s.opcodeAt_toNat.trans h.symm)

/-! ### What a running core does -/

theorem State.Running.status {s : State} (h : s.Running) : s.status = .running := s.status_running_iff.mpr h

theorem step_of_decode {s : State} {i : Instr} (hrun : s.Running) (hpc : s.pc.toNat ≤ 0xFFE)
    (hd : decodeWord s.opcodeAt = .ok i) : step s = exec i { s with pc := s.pc + 2 } := by
  refine step_fetched hrun.status ?_
  rcases s.fetch_eq with ⟨hout, -⟩ | ⟨-, ⟨e, he⟩, -⟩ | ⟨-, j, hj, hf⟩
  · omega
  · cases hd.symm.trans he
  · cases hd.symm.trans hj
    exact hf

/-- Settles O6: the big-endian word at `PC` is the fetched one. -/
theorem stepRunsTheDecodedInstruction : Obligations.StepRunsTheDecodedInstruction := by
  intro s i hrun hpc hd
  rw [← s.opcodeAt_eq] at hd
  exact step_of_decode hrun hpc hd

theorem step_of_encoded {s : State} {i : Instr} (hrun : s.Running) (hpc : s.pc.toNat ≤ 0xFFE)
    (hword : (encode i).toNat = 256 * (s.byte s.pc.toNat).toNat + (s.byte (s.pc.toNat + 1)).toNat) :
    step s = exec i { s with pc := s.pc + 2 } := by
  refine step_of_decode hrun hpc ?_
  rw [State.opcodeAt_eq_of_bytes hword, decodeWord_encode]

/-- Settles O7: the two bytes are those of the encoding, which decodes to `i`. -/
theorem encodedInstructionAtPcRuns : Obligations.EncodedInstructionAtPcRuns := by
  intro s i hrun hpc hhi hlo
  refine step_of_encoded hrun hpc ?_
  rw [hhi, hlo, Nat.div_add_mod]

theorem step_of_not_running {s : State} (h : s.status ≠ .running) : step s = .next s := by
  cases hs : s.status with
  | stopped => exact step_stopped hs
  | blocked => exact step_blocked hs
  | running => exact absurd hs h

/-- Settles O8: such a core is not running. -/
theorem stoppedOrBlockedStepChangesNothing : Obligations.StoppedOrBlockedStepChangesNothing := by
  intro s h
  refine step_of_not_running fun hrun => ?_
  obtain ⟨hvalid, hwait⟩ := s.status_running_iff.mp hrun
  rcases h with herr | ⟨hwired, hkey⟩
  · exact Bool.false_ne_true (hvalid.symm.trans herr)
  · rcases hwait with hw | hk
    · exact Bool.false_ne_true (hw.symm.trans hwired)
    · exact Bool.false_ne_true (hk.symm.trans hkey)

/-- Settles O9: the fetch reads nothing and raises its fault on the state as it is. -/
theorem fetchOutOfRangeStopsTheCore : Obligations.FetchOutOfRangeStopsTheCore := by
  intro s hrun hpc
  refine step_faulted hrun.status ?_
  rcases s.fetch_eq with ⟨-, hf⟩ | ⟨hin, -⟩ | ⟨hin, -⟩
  · exact hf
  · omega
  · omega

/-- Settles O10: the decoder refuses the fetched word, and the fault is raised past it. -/
theorem unknownOpcodeStopsTheCore : Obligations.UnknownOpcodeStopsTheCore := by
  intro s w hrun hpc hw hd
  obtain rfl := State.opcodeAt_eq_of_bytes hw
  refine step_faulted hrun.status ?_
  rcases s.fetch_eq with ⟨hout, -⟩ | ⟨-, -, hf⟩ | ⟨-, i, hi, -⟩
  · omega
  · exact hf
  · cases hd.symm.trans hi

/-! ### The fault record -/

/-- An instruction writes `ERR` by raising a cause of its own, or not at all. -/
theorem Effect.err_or_fault {s t : State} {i : Instr} (h : Effect s i t) :
    t.err = s.err ∨ ∃ r, Raises s i r.cause ∧ t = s.raiseIn i r := by
  cases h with
  | fault r hr => exact .inr ⟨r, hr, rfl⟩
  | skip c hi => exact .inl (s.skipIf_err c)
  | poll hw c hi => exact .inl (s.tookPoll.skipIf_err c)
  | nothing | registers | random | jump | call | ret | clear | sprite | await | delay | sound | index | store =>
    exact .inl rfl

theorem Raises.code_ne_two {s : State} {i : Instr} {c : Cause} (h : Raises s i c) : c.code ≠ 2 := by
  cases h <;> decide

/-- Settles O18: a step raises the fault of the fetch, that of the decoder, or one of the fetched instruction, whose
encoding is the word at `PC`. -/
theorem stepFaultIsPrecise : Obligations.StepFaultIsPrecise := by
  intro s t hsafe hstep hvalid
  rcases step_cases hstep with ⟨-, rfl⟩ | ⟨-, -, rfl⟩ | ⟨-, hpc, -, rfl⟩ | ⟨-, hpc, i, hd, hexec⟩
  · exact absurd (hsafe.symm.trans hvalid) Bool.false_ne_true
  · exact ⟨rfl, rfl, .inl ⟨rfl, rfl, rfl⟩⟩
  · exact ⟨rfl, rfl, .inr ⟨(by decide : (1 : BitVec 4) ≠ 2), hpc, rfl, s.opcodeAt_toNat⟩⟩
  · rcases (effect_of_exec hexec).err_or_fault with herr | ⟨r, hr, rfl⟩
    · exact absurd (hsafe.symm.trans ((congrArg ErrRecord.valid herr).symm.trans hvalid)) Bool.false_ne_true
    · refine ⟨rfl, ?addr, .inr ⟨hr.code_ne_two, hpc, rfl, ?opcode⟩⟩
      case addr => exact BitVec.add_sub_cancel s.pc 2
      case opcode =>
        show (encode i).toNat = _
        rw [encode_of_decodeWord hd, s.opcodeAt_toNat]

/-! ### The host's events beside reset and step -/

/-- What they can change: memory, a register, the timers, `DF` and the key wait. -/
theorem handle_frame {e : Event} {s t : State} (hstep : e ≠ .step) (hreset : e ≠ .reset) (h : handle e s = .next t) :
    t = { s with mem := t.mem, v := t.v, dt := t.dt, st := t.st, df := t.df, waitKey := t.waitKey } := by
  cases e with
  | step => exact absurd rfl hstep
  | reset => exact absurd rfl hreset
  | consumeRedraw => cases h; rfl
  | load bytes =>
    cases h
    unfold onLoad
    split <;> rfl
  | key k =>
    cases h
    unfold onKey
    split <;> rfl
  | timerTick =>
    cases h
    unfold onTimerTick
    split <;> rfl

/-- Settles O20: a stopped core's step changes nothing, and of the other events reset alone writes `ERR`. -/
theorem onlyResetClearsTheError : Obligations.OnlyResetClearsTheError := by
  refine ⟨fun e s t hreset hvalid h => ?kept, fun s t h => ?cleared⟩
  case kept =>
    by_cases hstep : e = .step
    · subst hstep
      cases (step_stopped (s.status_stopped_iff.mpr hvalid)).symm.trans h
      rfl
    · have hframe := congrArg State.err (handle_frame hstep hreset h)
      exact hframe
  case cleared =>
    cases h
    rfl

/-! ### Parameters and counters -/

theorem Effect.cfg {s t : State} {i : Instr} (h : Effect s i t) : t.cfg = s.cfg := by
  cases h with
  | skip c hi => exact s.skipIf_cfg c
  | poll hw c hi => exact s.tookPoll.skipIf_cfg c
  | nothing | fault | registers | random | jump | call | ret | clear | sprite | await | delay | sound | index | store =>
    rfl

/-- An instruction takes one input or emits one `clear`, or does none of these. -/
theorem Effect.counters {s t : State} {i : Instr} (h : Effect s i t) :
    s.draws ≤ t.draws ∧ s.polls ≤ t.polls ∧ s.clears ≤ t.clears ∧
      (t.draws - s.draws) + (t.polls - s.polls) + (t.clears - s.clears) ≤ 1 := by
  cases h <;> simp

theorem step_cfg {s t : State} (h : step s = .next t) : t.cfg = s.cfg := by
  rcases step_cases h with ⟨-, rfl⟩ | ⟨-, -, rfl⟩ | ⟨-, -, -, rfl⟩ | ⟨-, -, i, -, hexec⟩
  · rfl
  · rfl
  · rfl
  · exact (effect_of_exec hexec).cfg

theorem step_counters {s t : State} (h : step s = .next t) :
    s.draws ≤ t.draws ∧ s.polls ≤ t.polls ∧ s.clears ≤ t.clears ∧
      (t.draws - s.draws) + (t.polls - s.polls) + (t.clears - s.clears) ≤ 1 := by
  rcases step_cases h with ⟨-, rfl⟩ | ⟨-, -, rfl⟩ | ⟨-, -, -, rfl⟩ | ⟨-, -, i, -, hexec⟩
  · simp
  · simp
  · simp
  · exact (effect_of_exec hexec).counters

/-- An event other than the step keeps the parameters and the counters. -/
theorem handle_keeps_inputs {e : Event} {s t : State} (he : e ≠ .step) (h : handle e s = .next t) :
    t.cfg = s.cfg ∧ t.draws = s.draws ∧ t.polls = s.polls ∧ t.clears = s.clears := by
  by_cases hreset : e = .reset
  · subst hreset
    cases h
    exact ⟨rfl, rfl, rfl, rfl⟩
  · have hframe := handle_frame he hreset h
    rw [hframe]
    exact ⟨rfl, rfl, rfl, rfl⟩

/-- Settles O15: the counters move in three of the ways an instruction can end, by one, and in no other event. -/
theorem parametersStayAndInputsCountUp : Obligations.ParametersStayAndInputsCountUp := by
  refine ⟨fun e s t h => ?parameters, fun s t h => step_counters h, fun e s t he h => (handle_keeps_inputs he h).2⟩
  case parameters =>
    by_cases he : e = .step
    · subst he
      exact step_cfg h
    · exact (handle_keeps_inputs he h).1

end Sys2Proof.Machine
end

