-- ==== Sys2Proof/Proofs/Invariant.lean ====
section
/-! The invariant of the core (spec/10_state.md R27, R35, R36): it holds after reset, every instruction keeps it on a
running core whose `PC` the fetch has just moved, and so does every event. -/

namespace Sys2Proof.Machine

/-! ### Instructions -/

/-- The fetch's increment and a taken skip stay far below the bound. -/
theorem toNat_add_two {w : Word} (h : w.toNat ≤ 0x10FE) : (w + 2).toNat = w.toNat + 2 := by
  show (w.toNat + 2) % 2 ^ 16 = w.toNat + 2
  omega

theorem State.Inv.skip {s : State} (hinv : s.Inv) (hpc : s.pc.toNat ≤ 0x1000) (c : Bool) : (s.skipIf c).Inv := by
  have hnext := toNat_add_two hinv.pcBound
  rw [State.skipIf_eq]
  cases c with
  | false => exact hinv
  | true => exact { hinv with pcBound := by show (s.pc + 2).toNat ≤ 0x10FE; omega }

theorem State.Inv.call {s : State} (hinv : s.Inv) (hpc : s.pc.toNat ≤ 0x1000) (h : s.sp.val < 16) (a : BitVec 12) :
    ((s.push h s.pc).setPc (zextAddr a)).Inv :=
  { hinv with
    pcBound := by
      have ha := a.isLt
      rw [State.setPc_pc, zextAddr_toNat]
      omega
    stackBound := fun j => by
      show ((s.stack.set s.sp.val s.pc)[j.val]).toNat ≤ 0x1000
      rw [Vector.getElem_set]
      split
      · exact hpc
      · exact hinv.stackBound j }

theorem State.Inv.fault {s : State} (hinv : s.Inv) (hkey : s.waitKey = false) (r : Raised) (opcode addr : Word) :
    (s.raise r opcode addr).Inv :=
  { hinv with
    errEmpty := fun h => absurd h Bool.noConfusion
    errCause := fun _ => ⟨r.cause.code_bounds.1, r.cause.code_bounds.2, hkey⟩ }

theorem Effect.inv {s t : State} {i : Instr} (h : Effect s i t) (hinv : s.Inv) (hpc : s.pc.toNat ≤ 0x1000)
    (hsafe : s.err.valid = false) (hkey : s.waitKey = false) : t.Inv := by
  cases h with
  | nothing => exact hinv
  | fault r hr => exact hinv.fault hkey r _ _
  | registers | random | clear | sprite | delay | sound | index => exact { hinv with }
  | jump w hw hi => exact { hinv with pcBound := hw }
  | skip c hi => exact hinv.skip hpc c
  | call a hi hroom => exact hinv.call hpc hroom a
  | ret hi hpos =>
    have hslot := hinv.stackBound ⟨s.sp.val - 1, by omega⟩
    exact { hinv with pcBound := Nat.le_trans hslot (by decide) }
  | poll hw c hi => exact State.Inv.skip (s := s.tookPoll) { hinv with } hpc c
  | await hw x hi =>
    exact { hinv with
      waitWired := fun hnot => absurd (hnot.symm.trans hw) Bool.false_ne_true
      errCause := fun hstop => absurd (hsafe.symm.trans hstop) Bool.false_ne_true }
  | store bytes hroom hi => exact { hinv with memory := Memory.wf_store hinv.memory hroom }

/-! ### Steps -/

/-- A running core with the invariant waits for no key. -/
theorem State.Inv.waitKey_of_running {s : State} (hinv : s.Inv) (hrun : s.Running) : s.waitKey = false :=
  hrun.2.elim (fun hw => (hinv.waitWired hw).1) id

/-- Settles O12: the fetch moves `PC` to at most 0x1000, whence every instruction keeps the invariant; the faults of the
fetch and the decoder write `ERR` alone. -/
theorem stepKeepsInvariant : Obligations.StepKeepsInvariant := by
  intro s t hinv hstep
  rcases step_cases hstep with ⟨-, rfl⟩ | ⟨hrun, -, rfl⟩ | ⟨hrun, hpc, -, rfl⟩ | ⟨hrun, hpc, i, -, hexec⟩
  · exact hinv
  · have hkey := hinv.waitKey_of_running (s.status_running_iff.mp hrun)
    exact hinv.fault hkey ⟨.fetchOutOfRange, 0⟩ 0 s.pc
  all_goals
    have hrunning := s.status_running_iff.mp hrun
    have hkey := hinv.waitKey_of_running hrunning
    have hnext := toNat_add_two hinv.pcBound
    have hadv : s.advance.Inv := { hinv with pcBound := by rw [State.advance_pc]; omega }
  · exact hadv.fault hkey ⟨.unknownOpcode, 0⟩ s.opcodeAt s.pc
  · refine (effect_of_exec hexec).inv hadv ?pc hrunning.1 hkey
    case pc =>
      show (s.pc + 2).toNat ≤ 0x1000
      omega

/-! ### Reset and the other events -/

theorem resetWith_inv (c : Config) : (State.resetWith c).Inv where
  memory := Memory.wf_nil
  pcBound := (by decide : (0x200 : Word).toNat ≤ 0x10FE)
  stackBound := fun j => by
    show ((Vector.replicate 16 (0 : Word))[j.val]).toNat ≤ 0x1000
    rw [Vector.getElem_replicate]
    decide
  waitWired := fun _ => ⟨rfl, rfl⟩
  errEmpty := fun _ => rfl
  errCause := fun h => absurd h Bool.noConfusion

/-- Settles O13: memory is empty, every slot zero, `PC` at the entry address, and neither a fault nor a wait stands. -/
theorem resetMeetsInvariant : Obligations.ResetMeetsInvariant := ⟨resetWith_inv _, resetWith_inv⟩

theorem onLoad_inv {s : State} (hinv : s.Inv) (bytes : List Byte) : (onLoad bytes s).Inv := by
  unfold onLoad
  split
  · next hfit =>
    have hroom : 0x200 + bytes.length ≤ 4096 := Nat.add_le_add_left ((imageWellFormed_iff bytes).mp hfit) 0x200
    exact { hinv with memory := Memory.wf_store hinv.memory hroom }
  · exact hinv

/-- A key lifts a wait, which only a wired keyboard lets stand. -/
theorem onKey_inv {s : State} (hinv : s.Inv) (k : BitVec 4) : (onKey k s).Inv := by
  unfold onKey
  split
  · exact { hinv with
      waitWired := fun hw => ⟨rfl, (hinv.waitWired hw).2⟩
      errCause := fun hstop => ⟨(hinv.errCause hstop).1, (hinv.errCause hstop).2.1, rfl⟩ }
  · exact hinv

theorem onTimerTick_inv {s : State} (hinv : s.Inv) : (onTimerTick s).Inv := by
  unfold onTimerTick
  split
  · exact { hinv with }
  · exact hinv

theorem handle_inv {e : Event} {s t : State} (hinv : s.Inv) (h : handle e s = .next t) : t.Inv := by
  cases e with
  | step => exact stepKeepsInvariant s t hinv h
  | reset => cases h; exact { resetWith_inv s.cfg with }
  | consumeRedraw => cases h; exact { hinv with }
  | load bytes => cases h; exact onLoad_inv hinv bytes
  | key k => cases h; exact onKey_inv hinv k
  | timerTick => cases h; exact onTimerTick_inv hinv

/-- Settles O14, by induction on the sequence of events. -/
theorem everyEventKeepsInvariant : Obligations.EveryEventKeepsInvariant := by
  intro es
  induction es with
  | nil =>
    intro s t hinv h
    cases h
    exact hinv
  | cons e es ih =>
    intro s t hinv h
    rw [handleAll] at h
    cases he : handle e s with
    | next u =>
      rw [he] at h
      exact ih u t (handle_inv hinv he) h
    | fault f => cases f
    | refused r =>
      rw [he] at h
      cases h

end Sys2Proof.Machine
end

