-- ==== Sys2Proof/Proofs/RedrawAndSound.lean ====
section
/-! No step reads `DF` or `ST` (spec/10_state.md R32, R34): run beside itself with other values there, a step does the
same to everything else. -/

namespace Sys2Proof.Machine

/-- `s` with other values in `DF` and `ST`. -/
def State.withDfSt (s : State) (b : Bool) (c : Byte) : State := { s with df := b, st := c }

/-- `u` differs from `t` at most in `DF` and `ST`, each of which holds the value put in or the value `t` has. -/
def AgreesBut (b : Bool) (c : Byte) (t u : State) : Prop :=
  { u with df := t.df, st := t.st } = t ∧ (u.df = b ∨ u.df = t.df) ∧ (u.st = c ∨ u.st = t.st)

theorem AgreesBut.withDfSt (b : Bool) (c : Byte) (t : State) : AgreesBut b c t (t.withDfSt b c) :=
  ⟨rfl, .inl rfl, .inl rfl⟩

theorem withDfSt_skipIf (s : State) (b : Bool) (c : Byte) (taken : Bool) :
    (s.withDfSt b c).skipIf taken = (s.skipIf taken).withDfSt b c := by
  cases taken <;> rfl

theorem withDfSt_keySkip (s : State) (b : Bool) (c : Byte) (i : Instr) (x : Reg) (want : Bool) {t : State}
    (h : keySkip i x want s = .next t) : keySkip i x want (s.withDfSt b c) = .next (t.withDfSt b c) := by
  by_cases hkey : keyWellFormed (s.reg x) = true
  · rw [keySkip_of_key i want hkey] at h
    cases h
    rw [keySkip_of_key (s := s.withDfSt b c) i want hkey]
    exact congrArg Host.Outcome.next (withDfSt_skipIf s.tookPoll b c _)
  · rw [keySkip_of_noKey i want hkey] at h
    cases h
    exact keySkip_of_noKey (s := s.withDfSt b c) i want hkey

/-- An instruction beside itself. -/
theorem exec_withDfSt (i : Instr) (s : State) (b : Bool) (c : Byte) :
    ∃ t u, exec i s = .next t ∧ exec i (s.withDfSt b c) = .next u ∧ AgreesBut b c t u := by
  have same {t : State} (h : exec i s = .next t) (h' : exec i (s.withDfSt b c) = .next (t.withDfSt b c)) :
      ∃ t u, exec i s = .next t ∧ exec i (s.withDfSt b c) = .next u ∧ AgreesBut b c t u :=
    ⟨t, _, h, h', .withDfSt b c t⟩
  cases i with
  | cls | jpAddr | jpV0Addr | ldVxKk | addVxKk | ldVxVy | orVxVy | andVxVy | xorVxVy | addVxVy | subVxVy | shrVx
  | subnVxVy | shlVx | rndVxKk | ldIAddr | ldFVx | ldVxDt | ldDtVx => exact same rfl rfl
  | ldStVx x => exact ⟨_, _, rfl, rfl, rfl, .inl rfl, .inr rfl⟩
  | seVxKk | sneVxKk | seVxVy | sneVxVy =>
    exact same rfl (congrArg Host.Outcome.next (withDfSt_skipIf s b c _))
  | ret =>
    by_cases hsp : 0 < s.sp.val
    · exact same (exec_ret_of_pos hsp) (exec_ret_of_pos (s := s.withDfSt b c) hsp)
    · exact same (exec_ret_of_empty hsp) (exec_ret_of_empty (s := s.withDfSt b c) hsp)
  | callAddr a =>
    by_cases hsp : s.sp.val < 16
    · exact same (exec_callAddr_of_room a hsp) (exec_callAddr_of_room (s := s.withDfSt b c) a hsp)
    · exact same (exec_callAddr_of_full a hsp) (exec_callAddr_of_full (s := s.withDfSt b c) a hsp)
  | addIVx x =>
    by_cases hsum : s.i.toNat + (s.reg x).toNat > 0xFFFF
    · exact same (exec_addIVx_of_overflow x hsum) (exec_addIVx_of_overflow (s := s.withDfSt b c) x hsum)
    · exact same (exec_addIVx_of_fits x hsum) (exec_addIVx_of_fits (s := s.withDfSt b c) x hsum)
  | ldBVx x =>
    rcases Nat.lt_or_ge 0xFFF (s.i.toNat + 2) with hout | hfit
    · exact same (exec_ldBVx_of_outside x hout) (exec_ldBVx_of_outside (s := s.withDfSt b c) x hout)
    · exact same (exec_ldBVx_of_fits x hfit) (exec_ldBVx_of_fits (s := s.withDfSt b c) x hfit)
  | ldMemVx x =>
    rcases Nat.lt_or_ge 0xFFF (s.i.toNat + x.val) with hout | hfit
    · exact same (exec_ldMemVx_of_outside hout) (exec_ldMemVx_of_outside (s := s.withDfSt b c) hout)
    · exact same (exec_ldMemVx_of_fits hfit) (exec_ldMemVx_of_fits (s := s.withDfSt b c) hfit)
  | ldVxMem x =>
    rcases Nat.lt_or_ge 0xFFF (s.i.toNat + x.val) with hout | hfit
    · exact same (exec_ldVxMem_of_outside hout) (exec_ldVxMem_of_outside (s := s.withDfSt b c) hout)
    · exact same (exec_ldVxMem_of_fits hfit) (exec_ldVxMem_of_fits (s := s.withDfSt b c) hfit)
  | drwVxVyN x y n =>
    cases hdraw : drawRows s x y n.toNat s.canvas with
    | ok d =>
      refine ⟨_, _, exec_drwVxVyN_of_ok hdraw, exec_drwVxVyN_of_ok (s := s.withDfSt b c) hdraw, ?_⟩
      exact ⟨rfl, .inr rfl, .inl rfl⟩
    | error r =>
      exact same (exec_drwVxVyN_of_error hdraw) (exec_drwVxVyN_of_error (s := s.withDfSt b c) hdraw)
  | skpVx x =>
    by_cases hw : s.cfg.keyboardWired = true
    · obtain ⟨t, ht, -⟩ := keySkip_effect (i := .skpVx x) true hw (.inl rfl)
      refine same ((exec_skpVx_wired x hw).trans ht) ?_
      exact (exec_skpVx_wired (s := s.withDfSt b c) x hw).trans (withDfSt_keySkip s b c _ x true ht)
    · exact same (exec_skpVx_unwired x hw) (exec_skpVx_unwired (s := s.withDfSt b c) x hw)
  | sknpVx x =>
    by_cases hw : s.cfg.keyboardWired = true
    · obtain ⟨t, ht, -⟩ := keySkip_effect (i := .sknpVx x) false hw (.inr rfl)
      refine same ((exec_sknpVx_wired x hw).trans ht) ?_
      exact (exec_sknpVx_wired (s := s.withDfSt b c) x hw).trans (withDfSt_keySkip s b c _ x false ht)
    · exact same (exec_sknpVx_unwired x hw) (exec_sknpVx_unwired (s := s.withDfSt b c) x hw)
  | ldVxK x =>
    by_cases hw : s.cfg.keyboardWired = true
    · exact same (exec_ldVxK_wired x hw) (exec_ldVxK_wired (s := s.withDfSt b c) x hw)
    · exact same (exec_ldVxK_unwired x hw) (exec_ldVxK_unwired (s := s.withDfSt b c) x hw)

/-- Settles O21: the status, the fetched word and the fault of a fetch do not depend on `DF` and `ST`, and the fetched
instruction runs the same beside itself. -/
theorem stepIgnoresRedrawFlagAndSoundTimer : Obligations.StepIgnoresRedrawFlagAndSoundTimer := by
  intro s t b c hstep
  show ∃ u, step (s.withDfSt b c) = .next u ∧ AgreesBut b c t u
  have hstatus : (s.withDfSt b c).status = s.status := rfl
  rcases step_cases hstep with ⟨hidle, rfl⟩ | ⟨hrun, hpc, rfl⟩ | ⟨hrun, hpc, ⟨e, he⟩, rfl⟩ | ⟨hrun, hpc, i, hd, hexec⟩
  · exact ⟨_, step_of_not_running (hstatus ▸ hidle), .withDfSt b c t⟩
  · have hrunning : (s.withDfSt b c).Running := s.status_running_iff.mp hrun
    exact ⟨_, fetchOutOfRangeStopsTheCore _ hrunning hpc, rfl, .inl rfl, .inl rfl⟩
  · have hrunning : (s.withDfSt b c).Running := s.status_running_iff.mp hrun
    rw [decodeWord_error he] at he
    exact ⟨_, unknownOpcodeStopsTheCore _ _ hrunning hpc s.opcodeAt_toNat he, rfl, .inl rfl, .inl rfl⟩
  · have hrunning : (s.withDfSt b c).Running := s.status_running_iff.mp hrun
    obtain ⟨t', u, ht', hu, hagree⟩ := exec_withDfSt i { s with pc := s.pc + 2 } b c
    cases ht'.symm.trans hexec
    exact ⟨u, (step_of_decode hrunning hpc hd).trans hu, hagree⟩

end Sys2Proof.Machine
end

