-- ==== Sys2Proof/Proofs/Sprites.lean ====
section
/-! The sprite draw (spec/43_display.md R192 to R198): where its pixels land, what it does up to and after the first
collision, where it stops, and that a second draw undoes the first. -/

namespace Sys2Proof.Machine

/-! ### Where a pixel lands -/

theorem exceeds_of_gt (cmp : WrapCmp) {c dim : Nat} (h : dim < c) : exceeds cmp c dim = true := by
  cases cmp
  · exact decide_eq_true h
  · exact decide_eq_true h.le

theorem exceeds_of_lt (cmp : WrapCmp) {c dim : Nat} (h : c < dim) : exceeds cmp c dim = false := by
  cases cmp
  · exact decide_eq_false h.le.not_gt
  · exact decide_eq_false h.not_ge

theorem wrap_of_lt (cmp : WrapCmp) {c dim : Nat} (h : c < dim) : wrap cmp c dim = c := by
  rw [wrap, exceeds_of_lt cmp h]
  rfl

theorem wrap_of_gt (cmp : WrapCmp) {c dim : Nat} (h : dim < c) : wrap cmp c dim = c - dim := by
  rw [wrap, exceeds_of_gt cmp h]
  rfl

theorem wrap_gt_self (dim : Nat) : wrap .gt dim dim = dim := by
  simp [wrap, exceeds]

theorem wrap_ge_self (dim : Nat) : wrap .ge dim dim = 0 := by
  simp [wrap, exceeds]

/-- Settles O45: below and above the dimension the two readings agree, and at it each says its own. -/
theorem wrapSubtractsOnce : Obligations.WrapSubtractsOnce := by
  intro c dim
  refine ⟨fun hlt => ?below, fun heq => ?equal, fun hgt => ?above⟩
  case below => exact ⟨wrap_of_lt .gt hlt, wrap_of_lt .ge hlt⟩
  case equal =>
    subst heq
    exact ⟨wrap_gt_self c, wrap_ge_self c⟩
  case above =>
    rw [wrap_of_gt .gt hgt, wrap_of_gt .ge hgt]
    omega

/-- Whether it subtracts or not, the wrap keeps the residue. -/
theorem wrap_mod (cmp : WrapCmp) (c dim : Nat) : wrap cmp c dim % dim = c % dim := by
  rcases Nat.lt_trichotomy c dim with hlt | rfl | hgt
  · rw [wrap_of_lt cmp hlt]
  · cases cmp
    · rw [wrap_gt_self]
    · rw [wrap_ge_self, Nat.zero_mod, Nat.mod_self]
  · rw [wrap_of_gt cmp hgt, ← Nat.mod_eq_sub_mod hgt.le]

theorem cellOf_inj {cmp : WrapCmp} {ox oy cx cy cx' cy' : Nat} (hcx : cx < 8) (hcx' : cx' < 8) (hcy : cy < 15)
    (hcy' : cy' < 15) (h : cellOf cmp ox oy cx cy = cellOf cmp ox oy cx' cy') : cx = cx' ∧ cy = cy' := by
  unfold cellOf at h
  have hx := wrap_mod cmp (ox + cx) 64
  have hx' := wrap_mod cmp (ox + cx') 64
  have hcol : cx = cx' := by omega
  subst hcol
  have hy := wrap_mod cmp (oy + cy) 32
  have hy' := wrap_mod cmp (oy + cy') 32
  exact ⟨rfl, by omega⟩

/-- Settles O46: the wrap keeps the column modulo 64 and the row modulo 32, and the sprite is smaller than either. -/
theorem spritePixelsLandInDistinctCells : Obligations.SpritePixelsLandInDistinctCells := by
  intro cmp ox oy cx cy cx' cy' _ _ hcx hcx' hcy hcy' h
  exact cellOf_inj hcx hcx' hcy hcy' h

theorem State.landsIn_nodup (s : State) (x y : Reg) (c : Bool) {n : Nat} (hn : n ≤ 15) :
    ((s.spritePixels n).map (s.landsIn x y c)).Nodup := by
  refine List.Nodup.map_on ?_ (s.spritePixels_nodup n)
  rintro ⟨cx, cy⟩ hp ⟨cx', cy'⟩ hp' hcell
  obtain ⟨hcx, hcy, -⟩ := (s.mem_spritePixels n cx cy).mp hp
  obtain ⟨hcx', hcy', -⟩ := (s.mem_spritePixels n cx' cy').mp hp'
  obtain ⟨rfl, rfl⟩ := cellOf_inj hcx hcx' (by omega) (by omega) hcell
  rfl

/-! ### Pixels drawn in order -/

theorem drawList_of_clean {s : State} {x y : Reg} {ps : List (Nat × Nat)} (hclean : s.drawnClean x y ps)
    (hnodup : (ps.map (s.landsIn x y false)).Nodup) :
    ∃ d, drawList s.cfg.wrapCmp x y ps s.canvas = .ok d ∧ CanvasRegs s false d ∧
      ∀ k, k < 2048 → (d.disp[k]? = some true ↔ s.lit k ∨ k ∈ ps.map (s.landsIn x y false)) :=
  drawList_clean ps s.canvas (CanvasRegs.start s) hclean hnodup

/-- The cells of pixels drawn without a collision held 0, so each of them is in use once or not at all. -/
theorem lit_or_mem_iff_count {s : State} {x y : Reg} {ps : List (Nat × Nat)} (hclean : s.drawnClean x y ps)
    (hnodup : (ps.map (s.landsIn x y false)).Nodup) (k : Nat) :
    s.lit k ∨ k ∈ ps.map (s.landsIn x y false) ↔
      (s.lit k ↔ (ps.map (s.landsIn x y false)).count k % 2 = 0) := by
  by_cases hmem : k ∈ ps.map (s.landsIn x y false)
  · obtain ⟨p, hp, rfl⟩ := List.mem_map.mp hmem
    have hdark := (hclean p hp).2
    simp [hmem, hdark, List.count_eq_one_of_mem hnodup hmem]
  · simp [hmem, List.count_eq_zero_of_not_mem hmem]

/-- Toggling `a` times and then `b` times is toggling `a + b` times. -/
theorem toggled_add (lit : Prop) (a b : Nat) :
    ((lit ↔ a % 2 = 0) ↔ b % 2 = 0) ↔ (lit ↔ (a + b) % 2 = 0) := by
  have hsum : (a + b) % 2 = 0 ↔ (a % 2 = 0 ↔ b % 2 = 0) := by omega
  rw [hsum]
  tauto

theorem ne_iff_count_singleton (k j : Nat) : k ≠ j ↔ [j].count k % 2 = 0 := by
  by_cases h : k = j
  · simp [h]
  · simp [h, Ne.symm h]

theorem drawList_of_colliding {s : State} {x y : Reg} {pre : List (Nat × Nat)} {p : Nat × Nat}
    {post : List (Nat × Nat)} (h : s.drawnColliding x y pre p post)
    (hnodup : (pre.map (s.landsIn x y false)).Nodup) :
    ∃ d, drawList s.cfg.wrapCmp x y (pre ++ p :: post) s.canvas = .ok d ∧ CanvasRegs s true d ∧
      ∀ k, k < 2048 →
        (d.disp[k]? = some true ↔
          (s.lit k ↔
            ((pre ++ [p]).map (s.landsIn x y false) ++ post.map (s.landsIn x y true)).count k % 2 = 0)) := by
  obtain ⟨hclean, hcell, hlit, hpost⟩ := h
  obtain ⟨d, hd, hregs, hdisp⟩ := drawList_of_clean hclean hnodup
  rcases hregs.pixel x y p with ⟨hout, -⟩ | ⟨hk, e, he, hedisp, heregs⟩
  · omega
  have hset : d.disp[s.landsIn x y false p] = true := by
    have hlitd := (hdisp _ hk).mpr (.inl hlit)
    rw [Vector.getElem?_eq_getElem hk] at hlitd
    exact Option.some.inj hlitd
  rw [hset, Bool.or_true] at heregs
  obtain ⟨f, hf, hfregs, hfdisp⟩ := drawList_collided (x := x) (y := y) post e heregs hpost
  refine ⟨f, ?drawn, hfregs, fun k hk' => ?cells⟩
  case drawn =>
    rw [drawList_append, hd]
    show drawList s.cfg.wrapCmp x y (p :: post) d = .ok f
    rw [drawList_cons, he]
    exact hf
  case cells =>
    rw [hfdisp k hk', hedisp, toggle_getElem? _ hk, hdisp k hk', lit_or_mem_iff_count hclean hnodup]
    rw [and_iff_left hk', ne_iff_count_singleton, toggled_add, List.map_append, List.map_singleton, List.count_append,
      List.count_append, Nat.add_assoc, toggled_add]

theorem drawList_of_drawn {s : State} {x y : Reg} {ps : List (Nat × Nat)} {c : Bool} (h : s.drawn x y ps c)
    (hnodup : (ps.map (s.landsIn x y false)).Nodup) :
    ∃ d, drawList s.cfg.wrapCmp x y ps s.canvas = .ok d ∧ CanvasRegs s c d := by
  cases c with
  | false =>
    obtain ⟨d, hd, hregs, -⟩ := drawList_of_clean h hnodup
    exact ⟨d, hd, hregs⟩
  | true =>
    obtain ⟨pre, p, post, rfl, hcoll⟩ := h
    rw [List.map_append] at hnodup
    obtain ⟨d, hd, hregs, -⟩ := drawList_of_colliding hcoll hnodup.of_append_left
    exact ⟨d, hd, hregs⟩

/-! ### The whole sprite -/

/-- A drawn sprite writes the display, `V[0xF]` and `DF`, and nothing else. -/
theorem exec_drwVxVyN_of_drawList {x y : Reg} {n : BitVec 4} {s : State} {d : Canvas}
    (hread : s.rowsReadable n.toNat)
    (hd : drawList s.cfg.wrapCmp x y (s.spritePixels n.toNat) s.canvas = .ok d) :
    exec (.drwVxVyN x y n) s = .next { s with v := d.v, disp := d.disp, df := true } :=
  exec_drwVxVyN_of_ok ((drawRows_eq_list s x y n.toNat s.canvas hread).trans hd)

theorem toNat_le_fifteen (n : BitVec 4) : n.toNat ≤ 15 := Nat.le_of_lt_succ n.isLt

/-- Settles O42: with no collision the pixels are one clean list; with a first one the list splits there, the origin
reads `V[0xF]` as 0 up to it and as 1 after it. -/
theorem spriteDrawFollowsTheMovingOrigin : Obligations.SpriteDrawFollowsTheMovingOrigin := by
  intro x y n s hread
  have hnodup := s.landsIn_nodup x y false (toNat_le_fifteen n)
  refine ⟨fun hclean => ?clean, fun pre p post hsplit hcoll => ?colliding⟩
  case clean =>
    obtain ⟨d, hd, ⟨hregs, hvf⟩, hcells⟩ := drawList_of_clean hclean hnodup
    exact ⟨_, exec_drwVxVyN_of_drawList hread hd, ⟨rfl, hregs⟩, hvf, hcells⟩
  case colliding =>
    rw [hsplit, List.map_append] at hnodup
    obtain ⟨d, hd, ⟨hregs, hvf⟩, hcells⟩ := drawList_of_colliding hcoll hnodup.of_append_left
    exact ⟨_, exec_drwVxVyN_of_drawList hread (hsplit ▸ hd), ⟨rfl, hregs⟩, hvf, hcells⟩

/-! ### The first fault -/

theorem exec_drwVxVyN_of_fault {x y : Reg} {n : BitVec 4} {s : State} {m : Nat} {c : Cause} {info : Nat}
    (hm : m ≤ n.toNat) (h : drawRows s x y m s.canvas = .error ⟨c, info⟩) :
    exec (.drwVxVyN x y n) s =
      .next (s.faultedWith c.code (0xD000 + 256 * x.val + 16 * y.val + n.toNat) info) := by
  have hword : (encode (.drwVxVyN x y n)).toNat = 0xD000 + 256 * x.val + 16 * y.val + n.toNat :=
    encodeXYN_toNat 0xD x y n
  rw [exec_drwVxVyN_of_error (drawRows_error_mono s x y hm h), s.raiseIn_eq_faultedWith hword]

/-- Settles O43: what comes before the fault is drawn, and the row or the pixel there raises it. -/
theorem spriteDrawStopsAtTheFirstFault : Obligations.SpriteDrawStopsAtTheFirstFault := by
  intro x y n s m c hread
  have hn := toNat_le_fifteen n
  refine ⟨fun hm hout hdrawn => ?row, fun pre p post hm hsplit hdrawn hcell => ?pixel⟩
  case row =>
    obtain ⟨d, hd, -⟩ := drawList_of_drawn hdrawn (s.landsIn_nodup x y false (by omega))
    refine exec_drwVxVyN_of_fault (m := m + 1) (c := .memOutOfRange) hm ?_
    rw [drawRows_succ, drawRows_eq_list s x y m s.canvas hread, hd]
    show (match s.memRead (s.ea m) with
      | .ok spr => drawRow s.cfg.wrapCmp x y m spr d
      | .error r => .error r) = _
    rw [State.ea, s.memRead_error hout]
  case pixel =>
    have hnodup := s.landsIn_nodup x y false (hm.trans hn)
    rw [hsplit, List.map_append] at hnodup
    obtain ⟨d, hd, hregs⟩ := drawList_of_drawn hdrawn hnodup.of_append_left
    refine exec_drwVxVyN_of_fault (c := .displayOutOfRange) hm ?_
    rw [drawRows_eq_list s x y m s.canvas hread, hsplit, drawList_append, hd]
    show drawList s.cfg.wrapCmp x y (p :: post) d = _
    rw [drawList_cons]
    rcases hregs.pixel x y p with ⟨-, herr⟩ | ⟨hk, -⟩
    · rw [herr]
      rfl
    · omega

/-! ### A fixed origin -/

/-- Some set bit of the sprite lands in cell `k`. -/
def State.Covers (s : State) (x y : Reg) (n k : Nat) : Prop :=
  ∃ cx cy, s.spriteAt n cx cy ∧ s.landsIn x y false (cx, cy) = k

theorem State.covers_iff_mem (s : State) (x y : Reg) (n k : Nat) :
    s.Covers x y n k ↔ k ∈ (s.spritePixels n).map (s.landsIn x y false) := by
  simp only [State.Covers, List.mem_map, Prod.exists, s.mem_spritePixels]

theorem State.landsIn_fixed (s : State) {x y : Reg} (hx : x ≠ vf) (hy : y ≠ vf) (c : Bool) :
    s.landsIn x y c = s.landsIn x y false := by
  funext p
  simp only [State.landsIn, s.originOf_fixed hx, s.originOf_fixed hy]

/-- From a fixed origin pixels that all have a cell are drawn, whatever their cells held. -/
theorem drawList_of_fixed {s : State} {x y : Reg} (hx : x ≠ vf) (hy : y ≠ vf) {ps : List (Nat × Nat)}
    (hcells : ∀ p ∈ ps, s.landsIn x y false p ≤ 2047) (hnodup : (ps.map (s.landsIn x y false)).Nodup) :
    ∃ c d, drawList s.cfg.wrapCmp x y ps s.canvas = .ok d ∧ CanvasRegs s c d ∧
      (c = true ↔ ∃ p ∈ ps, s.lit (s.landsIn x y false p)) ∧
      ∀ k, k < 2048 →
        (d.disp[k]? = some true ↔ (s.lit k ↔ (ps.map (s.landsIn x y false)).count k % 2 = 0)) := by
  cases hfirst : ps.find? (fun p => decide (s.lit (s.landsIn x y false p))) with
  | none =>
    have hdark : ∀ p ∈ ps, ¬ s.lit (s.landsIn x y false p) := by simpa using hfirst
    have hclean : s.drawnClean x y ps := fun p hp => ⟨hcells p hp, hdark p hp⟩
    obtain ⟨d, hd, hregs, hdisp⟩ := drawList_of_clean hclean hnodup
    refine ⟨false, d, hd, hregs, by simpa using hdark, fun k hk => ?_⟩
    rw [hdisp k hk, lit_or_mem_iff_count hclean hnodup]
  | some p =>
    obtain ⟨hlit, pre, post, rfl, hpre⟩ := List.find?_eq_some_iff_append.mp hfirst
    have hlitp : s.lit (s.landsIn x y false p) := of_decide_eq_true hlit
    have hclean : s.drawnClean x y pre := fun q hq => ⟨hcells q (by simp [hq]), by simpa using hpre q hq⟩
    have hpost : ∀ q ∈ post, s.landsIn x y true q ≤ 2047 := fun q hq => by
      rw [s.landsIn_fixed hx hy true]
      exact hcells q (by simp [hq])
    have hcoll : s.drawnColliding x y pre p post := ⟨hclean, hcells p (by simp), hlitp, hpost⟩
    rw [List.map_append] at hnodup
    obtain ⟨d, hd, hregs, hdisp⟩ := drawList_of_colliding hcoll hnodup.of_append_left
    refine ⟨true, d, hd, hregs, ⟨fun _ => ⟨p, by simp, hlitp⟩, fun _ => rfl⟩, fun k hk => ?_⟩
    rw [hdisp k hk, s.landsIn_fixed hx hy true, ← List.map_append, List.append_assoc, List.singleton_append]

/-- A sprite that fits is drawn: the cells it covers are toggled and a covered cell that held 1 is a collision. -/
theorem exec_drwVxVyN_of_fits {x y : Reg} {n : BitVec 4} {s : State} (hx : x ≠ vf) (hy : y ≠ vf)
    (hfits : s.spriteFits x y n.toNat) :
    ∃ t, exec (.drwVxVyN x y n) s = .next t ∧ t = { s with v := t.v, disp := t.disp, df := true } ∧
      (∀ r, r ≠ vf → t.reg r = s.reg r) ∧
      (∀ k, k < 2048 → (t.lit k ↔ (s.Covers x y n.toNat k ↔ ¬ s.lit k))) ∧
      ((∃ k, s.Covers x y n.toNat k ∧ s.lit k) → t.reg vf = 1) ∧
      ((¬ ∃ k, s.Covers x y n.toNat k ∧ s.lit k) → t.reg vf = 0) := by
  obtain ⟨hread, hcells⟩ := hfits
  have hnodup := s.landsIn_nodup x y false (toNat_le_fifteen n)
  obtain ⟨c, d, hd, ⟨hregs, hvf⟩, hc, hdisp⟩ := drawList_of_fixed hx hy
    (fun p hp => hcells p.1 p.2 ((s.mem_spritePixels _ _ _).mp hp)) hnodup
  have hcollision : (∃ k, s.Covers x y n.toNat k ∧ s.lit k) ↔ c = true := by
    simp only [hc, s.covers_iff_mem, List.mem_map, exists_exists_and_eq_and]
  refine ⟨_, exec_drwVxVyN_of_drawList hread hd, rfl, hregs, fun k hk => ?toggled, fun h => ?one, fun h => ?zero⟩
  case toggled =>
    show d.disp[k]? = some true ↔ _
    rw [hdisp k hk, s.covers_iff_mem]
    by_cases hmem : k ∈ (s.spritePixels n.toNat).map (s.landsIn x y false)
    · simp [hmem, List.count_eq_one_of_mem hnodup hmem]
    · simp [hmem, List.count_eq_zero_of_not_mem hmem]
  case one => exact hvf.trans (if_pos (hcollision.mp h))
  case zero => exact hvf.trans (if_neg fun hc => h (hcollision.mpr hc))

/-- The two spellings of a collision: a covered cell, and the cell of a set bit. -/
theorem State.exists_covers_iff (s : State) (x y : Reg) (n : Nat) (P : Nat → Prop) :
    (∃ k, s.Covers x y n k ∧ P k) ↔ ∃ cx cy, s.spriteAt n cx cy ∧ P (s.landsIn x y false (cx, cy)) := by
  constructor
  · rintro ⟨_, ⟨cx, cy, hbit, rfl⟩, hP⟩
    exact ⟨cx, cy, hbit, hP⟩
  · rintro ⟨cx, cy, hbit, hP⟩
    exact ⟨_, ⟨cx, cy, hbit, rfl⟩, hP⟩

/-- Settles O41: with neither operand `V[0xF]` the origin is fixed, and no two set bits share a cell. -/
theorem spriteDrawTogglesItsCells : Obligations.SpriteDrawTogglesItsCells := by
  intro x y n s hx hy hfits
  obtain ⟨t, ht, hframe, hregs, hcells, hone, hzero⟩ := exec_drwVxVyN_of_fits hx hy hfits
  rw [s.exists_covers_iff] at hone hzero
  exact ⟨t, ht, hcells, hone, hzero, hframe, hregs⟩

theorem Vector.ext_lit {d e : Vector Bool 2048} (h : ∀ k, k < 2048 → (d[k]? = some true ↔ e[k]? = some true)) :
    d = e := by
  apply Vector.ext
  intro k hk
  have hiff := h k hk
  rw [Vector.getElem?_eq_getElem hk, Vector.getElem?_eq_getElem hk, Option.some.injEq, Option.some.injEq] at hiff
  exact Bool.eq_iff_iff.mpr hiff

/-- The second draw finds the sprite where the first found it. -/
theorem State.covers_congr {s t : State} {x y : Reg} (hx : x ≠ vf) (hy : y ≠ vf)
    (hframe : t = { s with v := t.v, disp := t.disp, df := true }) (hregs : ∀ r, r ≠ vf → t.reg r = s.reg r) (n : Nat) :
    t.spriteAt n = s.spriteAt n ∧ t.landsIn x y false = s.landsIn x y false := by
  refine ⟨?sprite, ?cells⟩
  case sprite =>
    rw [hframe]
    rfl
  case cells =>
    have hcfg : t.cfg = s.cfg := by rw [hframe]
    funext p
    simp only [State.landsIn, State.originOf_fixed _ hx, State.originOf_fixed _ hy, hregs x hx, hregs y hy, hcfg]

/-- Settles O44: both draws toggle the same cells, and what the second finds set is what the first found clear. -/
theorem spriteDrawTwiceRestoresTheDisplay : Obligations.SpriteDrawTwiceRestoresTheDisplay := by
  intro x y n s hx hy hfits
  obtain ⟨t, ht, hframe, hregs, hcells, -, -⟩ := exec_drwVxVyN_of_fits hx hy hfits
  obtain ⟨hsprite, hlands⟩ := State.covers_congr hx hy hframe hregs n.toNat
  have hcovers : t.Covers x y n.toNat = s.Covers x y n.toNat := by
    unfold State.Covers
    rw [hsprite, hlands]
  have hfits' : t.spriteFits x y n.toNat := by
    have hi : t.i = s.i := by rw [hframe]
    unfold State.spriteFits State.rowsReadable
    rw [hsprite, hlands, hi]
    exact hfits
  obtain ⟨u, hu, -, -, hcells', hone, hzero⟩ := exec_drwVxVyN_of_fits hx hy hfits'
  rw [hcovers] at hcells' hone hzero
  refine ⟨t, u, ht, hu, Vector.ext_lit fun k hk => ?restored, ?flag⟩
  case restored =>
    show u.lit k ↔ s.lit k
    rw [hcells' k hk, hcells k hk]
    tauto
  case flag =>
    have hiff : u.reg vf = 1 ↔ ∃ k, s.Covers x y n.toNat k ∧ t.lit k := by
      refine ⟨fun h1 => ?_, hone⟩
      by_contra hnone
      exact absurd ((hzero hnone).symm.trans h1) (by decide)
    rw [hiff, s.exists_covers_iff]
    refine exists_congr fun cx => exists_congr fun cy => and_congr_right fun hbit => ?_
    have hk := hfits.2 cx cy hbit
    have hcov : s.Covers x y n.toNat (s.landsIn x y false (cx, cy)) := ⟨cx, cy, hbit, rfl⟩
    rw [hcells _ (by omega), iff_true_left hcov]

end Sys2Proof.Machine
end

