-- ==== Sys2Proof/Proofs/FlagAlu.lean ====
section
/-! The arithmetic that writes a flag, the shifts and random (spec/41_register_alu.md R148 to R155): a flag write, a
result computed on the registers after it, and a result write. -/

namespace Sys2Proof.Machine

/-! ### Two register writes -/

/-- The frame of a flag write followed by a result write. -/
theorem State.setReg_setReg_frame (s : State) (x : Reg) (f b : Byte) :
    (s.setReg vf f).setReg x b = { s with v := ((s.setReg vf f).setReg x b).v } ∧
      ∀ r, r ≠ x → r ≠ vf → ((s.setReg vf f).setReg x b).reg r = s.reg r :=
  ⟨rfl, fun r hx hf => by rw [State.reg_setReg, if_neg hx, State.reg_setReg, if_neg hf]⟩

theorem State.reg_setReg_ne (s : State) {r x : Reg} (h : r ≠ x) (b : Byte) : (s.setReg x b).reg r = s.reg r :=
  (s.reg_setReg x r b).trans (if_neg h)

/-- The flag stands unless the result overwrites it. -/
theorem State.reg_vf_setReg_setReg (s : State) {x : Reg} (hx : x ≠ vf) (f b : Byte) :
    ((s.setReg vf f).setReg x b).reg vf = f := by
  rw [State.reg_setReg_ne _ hx.symm, State.reg_setReg_self]

/-! ### Bytes as numbers -/

theorem byte_sub_toNat (a b : Byte) : (a - b).toNat = (a.toNat + 256 - b.toNat) % 256 := by
  have hb := b.isLt
  rw [BitVec.toNat_sub]
  congr 1
  omega

theorem flagByte_toNat (p : Prop) [Decidable p] : (flagByte (decide p)).toNat = if p then 1 else 0 := by
  by_cases h : p <;> simp [flagByte, h]

theorem greaterFlag_toNat (a b : Byte) : (greaterFlag a b).toNat = if a.toNat > b.toNat then 1 else 0 :=
  flagByte_toNat _

theorem lowBitFlag_toNat (a : Byte) : (lowBitFlag a).toNat = a.toNat % 2 := by
  rw [lowBitFlag, BitVec.toNat_and]
  exact Nat.and_one_is_mod a.toNat

theorem byte_shiftRight_one_toNat (a : Byte) : (a >>> 1).toNat = a.toNat / 2 := by
  rw [BitVec.toNat_ushiftRight, Nat.shiftRight_eq_div_pow, Nat.pow_one]

theorem byte_shiftLeft_one_toNat (a : Byte) : (a <<< 1).toNat = 2 * a.toNat % 256 := by
  rw [BitVec.toNat_shiftLeft, Nat.shiftLeft_eq, Nat.pow_one, Nat.mul_comm]

theorem and_80_ne_zero (a : Byte) : (a &&& 0x80 != 0) = decide (a.toNat ≥ 128) := by
  have ha := a.isLt
  have hbit : (a &&& 0x80).toNat = a.toNat / 2 ^ 7 % 2 * 128 := by
    rw [BitVec.toNat_and, ← Nat.toNat_testBit]
    exact Nat.and_two_pow a.toNat 7
  rw [Bool.eq_iff_iff, bne_iff_ne, Ne, ← BitVec.toNat_inj, hbit, decide_eq_true_eq]
  show ¬ a.toNat / 2 ^ 7 % 2 * 128 = 0 ↔ _
  omega

theorem highBitFlag_toNat (a : Byte) : (highBitFlag a).toNat = a.toNat / 128 := by
  have ha := a.isLt
  rw [highBitFlag, and_80_ne_zero, flagByte_toNat]
  split <;> omega

/-! ### The statements -/

/-- Settles O23: the sum and the carry are of the old operands, and the sum is written last. -/
theorem addWritesSumAndCarry : Obligations.AddWritesSumAndCarry := by
  intro x y s
  refine ⟨_, exec_addVxVy x y s, ?sum, fun hx => ?carry, s.setReg_setReg_frame x _ _⟩
  case sum => rw [State.reg_setReg_self, BitVec.toNat_ofNat]
  case carry =>
    rw [s.reg_vf_setReg_setReg hx, carryFlag, flagByte]
    simp only [decide_eq_true_eq]

/-- Settles O24: the difference is of the registers after the flag write, so an operand `V[0xF]` reads the flag. -/
theorem subtractsWriteDifferenceAndFlag : Obligations.SubtractsWriteDifferenceAndFlag := by
  intro x y s
  refine ⟨⟨_, exec_subVxVy x y s, s.setReg_setReg_frame x _ _, fun hx => ?flag, fun hx hy => ?plain,
      fun hx hy => ?yFlag, fun hx hy => ?xFlag, fun hx hy => ?bothFlag⟩,
    ⟨_, exec_subnVxVy x y s, s.setReg_setReg_frame x _ _, fun hx => ?flagN, fun hx hy => ?plainN,
      fun hx hy => ?yFlagN, fun hx hy => ?xFlagN, fun hx hy => ?bothFlagN⟩⟩
  case flag | flagN => rw [s.reg_vf_setReg_setReg hx, greaterFlag_toNat]
  case plain | plainN => rw [State.reg_setReg_self, s.reg_setReg_ne hx, s.reg_setReg_ne hy, byte_sub_toNat]
  case yFlag | yFlagN =>
    subst hy
    rw [State.reg_setReg_self, s.reg_setReg_ne hx, State.reg_setReg_self, byte_sub_toNat, greaterFlag_toNat]
  case xFlag | xFlagN =>
    subst hx
    rw [State.reg_setReg_self, s.reg_setReg_ne hy, State.reg_setReg_self, byte_sub_toNat, greaterFlag_toNat]
  case bothFlag | bothFlagN =>
    subst hx hy
    exact (State.reg_setReg_self _ vf _).trans (BitVec.sub_self _)

/-- Settles O25: the bit shifted out is the flag, and with `x = 0xF` the shift is of that flag. -/
theorem shiftsMoveABitToTheFlag : Obligations.ShiftsMoveABitToTheFlag := by
  intro x y s
  have ha := (s.reg x).isLt
  refine ⟨⟨_, exec_shrVx x y s, s.setReg_setReg_frame x _ _, fun hx => ⟨?half, ?lowBit⟩, fun hx => ?rightOfFlag⟩,
    ⟨_, exec_shlVx x y s, s.setReg_setReg_frame x _ _, fun hx => ⟨?double, ?highBit⟩, fun hx => ?leftOfFlag⟩⟩
  case half => rw [State.reg_setReg_self, s.reg_setReg_ne hx, byte_shiftRight_one_toNat]
  case lowBit => rw [s.reg_vf_setReg_setReg hx, lowBitFlag_toNat]
  case rightOfFlag =>
    subst hx
    apply BitVec.eq_of_toNat_eq
    rw [State.reg_setReg_self, State.reg_setReg_self, byte_shiftRight_one_toNat, lowBitFlag_toNat,
      Nat.div_eq_of_lt (Nat.mod_lt _ (by decide))]
    rfl
  case double => rw [State.reg_setReg_self, s.reg_setReg_ne hx, byte_shiftLeft_one_toNat]
  case highBit => rw [s.reg_vf_setReg_setReg hx, highBitFlag_toNat]
  case leftOfFlag =>
    subst hx
    rw [State.reg_setReg_self, State.reg_setReg_self, byte_shiftLeft_one_toNat, highBitFlag_toNat]
    omega

/-- Settles O26: the mask clause holds of `b and kk` for every byte `b`. -/
theorem randomByteIsMasked : Obligations.RandomByteIsMasked := by
  intro x kk s
  obtain ⟨-, hframe⟩ := s.setReg_frame x (Config.draw8 s.draws &&& kk)
  refine ⟨_, exec_rndVxKk x kk s, State.reg_setReg_self s x _, ?mask, rfl, hframe⟩
  case mask =>
    show ((s.setReg x (Config.draw8 s.draws &&& kk)).reg x).toNat &&& (2 ^ 8 - 1 - kk.toNat) = 0
    rw [State.reg_setReg_self, ← BitVec.toNat_not, ← BitVec.toNat_and, BitVec.and_assoc, BitVec.and_not_self]
    exact congrArg BitVec.toNat BitVec.and_zero

end Sys2Proof.Machine
end

