-- ==== Sys2Proof/Proofs/IndexAndMemory.lean ====
section
/-! The index register and the memory instructions (spec/42_index_memory.md): exact values, what a block store and a
block load leave as they were, and code at the addresses just written (spec/20_memory.md R75). -/

namespace Sys2Proof.Machine

/-! ### The index register -/

theorem zextByte_mul_five_toNat (b : Byte) : (zextByte b * 5).toNat = 5 * b.toNat := by
  have hb := b.isLt
  rw [BitVec.toNat_mul, zextByte_toNat]
  show b.toNat * 5 % 2 ^ 16 = 5 * b.toNat
  omega

/-- Settles O27: the address is zero-extended, and five times a byte fits in 16 bits. -/
theorem indexLoadsAssignI : Obligations.IndexLoadsAssignI := fun addr x s =>
  ⟨⟨_, exec_ldIAddr addr s, zextAddr_toNat addr, rfl⟩, ⟨_, exec_ldFVx x s, zextByte_mul_five_toNat (s.reg x), rfl⟩⟩

/-- The word of an instruction of format X (spec/30_encoding.md R94). -/
theorem encodeX_toNat (op : BitVec 4) (x : Reg) (kk : Byte) :
    (encodeXKK op x kk).toNat = 4096 * op.toNat + kk.toNat + 256 * x.val := by
  rw [encodeXKK_toNat]
  omega

/-- Settles O28: a sum that fits is exact in 16 bits, another is the fault's information. -/
theorem addToIndexIsExactOrFaults : Obligations.AddToIndexIsExactOrFaults := by
  intro x s
  refine ⟨fun hfit => ⟨_, exec_addIVx_of_fits x (by omega), ?sum, rfl⟩, fun hover => ?fault⟩
  case sum =>
    rw [State.setIndex_i, BitVec.toNat_ofNat]
    omega
  case fault =>
    have hword : (encode (.addIVx x)).toNat = 0xF01E + 256 * x.val := encodeX_toNat 0xF x 0x1E
    rw [exec_addIVx_of_overflow x hover, s.raiseIn_eq_faultedWith hword]
    rfl

/-! ### The three digits -/

theorem bcdHundreds_toNat (b : Byte) : (bcdHundreds b).toNat = b.toNat / 100 := by
  have hb := b.isLt
  rw [bcdHundreds, BitVec.toNat_ofNat]
  omega

theorem bcdTens_toNat (b : Byte) : (bcdTens b).toNat = b.toNat / 10 % 10 := by
  rw [bcdTens, BitVec.toNat_ofNat]
  omega

theorem bcdOnes_toNat (b : Byte) : (bcdOnes b).toNat = b.toNat % 10 := by
  rw [bcdOnes, BitVec.toNat_ofNat]
  omega

/-- Settles O29: the three digits are one block store at `I`. -/
theorem bcdStoreWritesThreeDigits : Obligations.BcdStoreWritesThreeDigits := by
  intro x s
  refine ⟨fun hfit => ⟨_, exec_ldBVx_of_fits x (by omega), rfl, ?hundreds, ?tens, ?ones, fun a ha => ?rest⟩,
    fun hout => ?fault⟩
  case hundreds =>
    rw [← bcdHundreds_toNat]
    exact congrArg BitVec.toNat (s.byte_storeBytes_add s.i.toNat 0 _ (Nat.le_of_ble_eq_true rfl))
  case tens =>
    rw [← bcdTens_toNat]
    exact congrArg BitVec.toNat (s.byte_storeBytes_add s.i.toNat 1 _ (Nat.le_of_ble_eq_true rfl))
  case ones =>
    rw [← bcdOnes_toNat]
    exact congrArg BitVec.toNat (s.byte_storeBytes_add s.i.toNat 2 _ (Nat.le_of_ble_eq_true rfl))
  case rest => exact s.byte_storeBytes_outside s.i.toNat a _ (ha.imp_right Nat.succ_le_of_lt)
  case fault =>
    have hword : (encode (.ldBVx x)).toNat = 0xF033 + 256 * x.val := encodeX_toNat 0xF x 0x33
    rw [exec_ldBVx_of_outside x (by omega), s.raiseIn_eq_faultedWith hword]
    rfl

/-! ### The block -/

theorem length_block (v : Vector Byte 16) (x : Reg) : (v.toList.take (x.val + 1)).length = x.val + 1 := by
  have hx := x.isLt
  rw [List.length_take, Vector.length_toList]
  omega

/-- Settles O30: the block is `V[0]` to `V[x]` in order, stored at `I`. -/
theorem blockStoreWritesTheRegisters : Obligations.BlockStoreWritesTheRegisters := by
  intro x s
  have hlen := length_block s.v x
  refine ⟨fun hfit => ⟨_, exec_ldMemVx_of_fits hfit, rfl, fun r hr => ?stored, fun a ha => ?rest⟩, fun hout => ?fault⟩
  case stored =>
    have hr' : r.val < (s.v.toList.take (x.val + 1)).length := by
      rw [hlen]
      exact Nat.lt_succ_of_le hr
    rw [s.byte_storeBytes_add s.i.toNat r.val _ hr', List.getElem_take, Vector.getElem_toList]
    rfl
  case rest => exact s.byte_storeBytes_outside s.i.toNat a _ (by omega)
  case fault =>
    have hword : (encode (.ldMemVx x)).toNat = 0xF055 + 256 * x.val := encodeX_toNat 0xF x 0x55
    rw [exec_ldMemVx_of_outside hout, s.raiseIn_eq_faultedWith hword]
    rfl

/-- Settles O31: the registers below the count are loaded, the others are kept. -/
theorem blockLoadReadsTheRegisters : Obligations.BlockLoadReadsTheRegisters := by
  intro x s
  refine ⟨fun hfit => ⟨_, exec_ldVxMem_of_fits hfit, rfl, fun r hr => ?loaded, fun r hr => ?kept⟩, fun hout => ?fault⟩
  case loaded => rw [State.reg_loadRegs, if_pos (Nat.lt_succ_of_le hr)]
  case kept => rw [State.reg_loadRegs, if_neg (Nat.not_lt.mpr (Nat.succ_le_of_lt hr))]
  case fault =>
    have hword : (encode (.ldVxMem x)).toNat = 0xF065 + 256 * x.val := encodeX_toNat 0xF x 0x65
    rw [exec_ldVxMem_of_outside hout, s.raiseIn_eq_faultedWith hword]
    rfl

/-- Settles O32: the load reads the bytes the store wrote, for registers are no part of memory. -/
theorem storeThenLoadRestoresRegisters : Obligations.StoreThenLoadRestoresRegisters := by
  intro x s hfit
  obtain ⟨t, ht, hframe, hstored, -⟩ := (blockStoreWritesTheRegisters x s).1 hfit
  refine ⟨t, ht, fun w => ?_⟩
  have hi : t.i = s.i := by rw [hframe]
  obtain ⟨u, hu, -, hloaded, -⟩ := (blockLoadReadsTheRegisters x { t with v := w }).1 (hi.symm ▸ hfit)
  refine ⟨u, hu, fun r hr => (hloaded r hr).trans ?_⟩
  show t.byte (t.i.toNat + r.val) = s.reg r
  rw [hi, hstored r hr]

/-- Settles O33: the store leaves the core running with the same `PC`, and its two bytes are `V[r]` and `V[r']`. -/
theorem storedBytesAreFetchedAtOnce : Obligations.StoredBytesAreFetchedAtOnce := by
  intro x r r' s i hrun hfit hr' hnext hpc hd
  obtain ⟨t, ht, hframe, hstored, -⟩ := (blockStoreWritesTheRegisters x s).1 hfit
  have hrx : r ≤ x := Fin.le_def.mpr (by have := Fin.le_def.mp hr'; omega)
  have htpc : t.pc = s.pc := by rw [hframe]
  have htrun : t.Running := by
    rw [hframe]
    exact hrun
  have hhi : t.byte t.pc.toNat = s.reg r := by rw [htpc, hpc, hstored r hrx]
  have hlo : t.byte (t.pc.toNat + 1) = s.reg r' := by
    rw [htpc, hpc, Nat.add_assoc, ← hnext, hstored r' hr']
  refine ⟨t, ht, ?_⟩
  rw [← htpc]
  refine stepRunsTheDecodedInstruction t i htrun ?inRange ?word
  case inRange =>
    have := Fin.le_def.mp hr'
    rw [htpc]
    omega
  case word => rw [hhi, hlo, hd]

end Sys2Proof.Machine
end

