-- ==== Sys2Proof/Proofs/ControlTransfer.lean ====
section
/-! Jumps, calls and returns (spec/40_control_transfer.md R121 to R123, R129, R130). -/

namespace Sys2Proof.Machine

/-! ### Jumps -/

/-- Settles O34: the address has 12 bits and the sum of an address and a byte has at most 13, so neither is reduced. -/
theorem jumpsAssignThePc : Obligations.JumpsAssignThePc := fun addr s =>
  ⟨⟨_, exec_jpAddr addr s, zextAddr_toNat addr, rfl⟩,
    ⟨_, exec_jpV0Addr addr s, jpV0_target_toNat addr (s.reg 0), rfl⟩⟩

theorem run_succ {s t : State} (h : step s = .next t) (k : Nat) :
    Sys2Proof.core.run (k + 1) s = Sys2Proof.core.run k t := by
  have hcore : Sys2Proof.core.step s = .next t := h
  simp only [Host.Core.run]
  rw [hcore]

/-- A state that a step leaves as it is stays so for any number of steps. -/
theorem run_of_step_self {s : State} (h : step s = .next s) (k : Nat) : Sys2Proof.core.run k s = .next s := by
  induction k with
  | zero => rfl
  | succ k ih => exact (run_succ h k).trans ih

/-- Settles O35: the word is that of `JP` to `PC`, whose step writes `PC` back. -/
theorem selfJumpChangesNothing : Obligations.SelfJumpChangesNothing := by
  intro s k hrun hpc hhi hlo
  refine run_of_step_self ?_ k
  have haddr : (s.pc.setWidth 12).toNat = s.pc.toNat := by
    rw [BitVec.toNat_setWidth]
    omega
  have hback : zextAddr (s.pc.setWidth 12) = s.pc := BitVec.eq_of_toNat_eq (by rw [zextAddr_toNat, haddr])
  have hword : (encode (.jpAddr (s.pc.setWidth 12))).toNat = 0x1000 + (s.pc.setWidth 12).toNat :=
    encodeNNN_toNat 0x1 (s.pc.setWidth 12)
  rw [step_of_encoded hrun hpc (by rw [hword, haddr, hhi, hlo]; omega), exec_jpAddr, hback]
  rfl

/-! ### Calls and returns -/

/-- Settles O36: the push writes the slot `SP` alone. -/
theorem callPushesTheReturnAddress : Obligations.CallPushesTheReturnAddress := by
  intro addr s
  refine ⟨fun hroom => ⟨_, exec_callAddr_of_room addr hroom, zextAddr_toNat addr, rfl, ?slot, fun j hj => ?others, rfl⟩,
    fun hfull => ?fault⟩
  case slot => exact Vector.getElem?_set_self hroom
  case others => exact Vector.getElem?_set_ne hroom hj.symm
  case fault =>
    have hword : (encode (.callAddr addr)).toNat = 0x2000 + addr.toNat := encodeNNN_toNat 0x2 addr
    rw [exec_callAddr_of_full addr (by omega), s.raiseIn_eq_faultedWith hword]
    rfl

/-- Settles O37: the pop reads the slot below `SP` and writes none. -/
theorem returnPopsTheAddress : Obligations.ReturnPopsTheAddress := by
  intro s
  refine ⟨fun hpos => ⟨_, exec_ret_of_pos hpos, rfl, ?slot, rfl⟩, fun hempty => ?fault⟩
  case slot => exact Vector.getElem?_eq_getElem (by omega)
  case fault => rw [exec_ret_of_empty (by omega), s.raiseIn_eq_faultedWith (rfl : (encode .ret).toNat = 0x00EE)]; rfl

/-- Of the ways an instruction can end, the call alone writes the stack, and there the slot `SP`. -/
theorem Effect.slot {s t : State} {i : Instr} (h : Effect s i t) {j : Nat} (hne : t.stack[j]? ≠ s.stack[j]?) :
    (∃ addr, i = .callAddr addr) ∧ s.sp.val = j := by
  cases h with
  | call a hi hroom =>
    refine ⟨⟨a, hi⟩, ?_⟩
    by_contra hj
    exact hne (Vector.getElem?_set_ne hroom hj)
  | skip c hi => exact absurd (congrArg (·[j]?) (s.skipIf_stack c)) hne
  | poll hw c hi => exact absurd (congrArg (·[j]?) (s.tookPoll.skipIf_stack c)) hne
  | nothing | fault | registers | random | jump | ret | clear | sprite | await | delay | sound | index | store =>
    exact absurd rfl hne

/-- Settles O38: the `RET` reads the slot the `CALL` wrote, and no other instruction writes a slot. -/
theorem callThenReturnComesBack : Obligations.CallThenReturnComesBack := by
  refine ⟨fun addr s t u hroom hcall husp huslot => ?back, fun i s t j h hne => (effect_of_exec h).slot hne⟩
  case back =>
    obtain ⟨t', ht', -, -, hslot, -⟩ := (callPushesTheReturnAddress addr s).1 hroom
    cases ht'.symm.trans hcall
    obtain ⟨r, hr, hrsp, hrpc, -⟩ := (returnPopsTheAddress u).1 (by omega)
    rw [husp, Nat.add_sub_cancel] at hrsp hrpc
    refine ⟨r, hr, ?_, Fin.ext hrsp⟩
    exact Option.some.inj (hrpc.symm.trans (huslot.trans hslot))

end Sys2Proof.Machine
end

