-- ==== Sys2Proof/Proofs/TimersKeysEvents.lean ====
section
/-! `CLS`, the timers, the keyboard (spec/43_display.md R191, spec/44_timers_keyboard.md) and the host's events
(spec/50_interfaces.md R235 to R241, spec/60_exceptions.md R281). -/

namespace Sys2Proof.Machine

/-! ### Clear and the timers -/

/-- Settles O40: the display is a vector of zeros, and the event counter one further. -/
theorem clearScreenZeroesTheDisplay : Obligations.ClearScreenZeroesTheDisplay := by
  intro s
  refine ⟨_, exec_cls s, fun k hk => ?cell, rfl, rfl⟩
  case cell => rw [State.clearDisplay_disp, Vector.getElem?_eq_getElem hk, Vector.getElem_replicate]

/-- Settles O47: a register write, and one write of each timer. -/
theorem timerRegistersAreCopied : Obligations.TimerRegistersAreCopied := fun x s =>
  ⟨⟨_, exec_ldVxDt x s, s.reg_setReg_self x s.dt, s.setReg_frame x s.dt⟩, exec_ldDtVx x s, exec_ldStVx x s⟩

/-! ### The keyboard -/

/-- Settles O48: each of the three asks first whether a keyboard is wired. -/
theorem keyInstructionsWithoutKeyboardDoNothing : Obligations.KeyInstructionsWithoutKeyboardDoNothing := by
  intro x s hw
  have hnot : ¬ s.cfg.keyboardWired = true := Bool.eq_false_iff.mp hw
  exact ⟨exec_skpVx_unwired x hnot, exec_sknpVx_unwired x hnot, exec_ldVxK_unwired x hnot⟩

theorem keyWellFormed_iff (b : Byte) : keyWellFormed b = true ↔ b.toNat ≤ 15 := decide_eq_true_iff

/-- With a key in `V[x]` the answer for that key decides the skip. -/
theorem keySkip_key (i : Instr) {x : Reg} (want : Bool) {s : State} {k : BitVec 4} (hk : (s.reg x).toNat = k.toNat) :
    keySkip i x want s =
      .next { s with
        polls := s.polls + 1
        pc := if Config.isPressed s.polls k = want then s.pc + 2 else s.pc } := by
  have hkey : keyWellFormed (s.reg x) = true := (keyWellFormed_iff _).mpr (hk ▸ toNat_le_fifteen k)
  have hfield : (s.reg x).setWidth 4 = k := by
    apply BitVec.eq_of_toNat_eq
    rw [BitVec.toNat_setWidth, hk]
    exact Nat.mod_eq_of_lt k.isLt
  rw [keySkip_of_key i want hkey, hfield, State.skipIf_eq]
  simp only [beq_iff_eq]
  rfl

theorem keySkip_noKey {i : Instr} {x : Reg} (want : Bool) {s : State} {opcode : Nat} (hk : 15 < (s.reg x).toNat)
    (hword : (encode i).toNat = opcode) :
    keySkip i x want s = .next (s.faultedWith 8 opcode (s.reg x).toNat) := by
  have hkey : ¬ keyWellFormed (s.reg x) = true := fun h => by
    have := (keyWellFormed_iff _).mp h
    omega
  rw [keySkip_of_noKey i want hkey, s.raiseIn_eq_faultedWith hword]
  rfl

/-- Settles O49: the two skips differ in the answer they want. -/
theorem keySkipsFollowTheKeyboard : Obligations.KeySkipsFollowTheKeyboard := by
  intro x s hw
  refine ⟨fun k hk => ⟨?pressed, ?notPressed⟩, fun hnokey => ⟨?pressedFault, ?notPressedFault⟩⟩
  case pressed => rw [exec_skpVx_wired x hw, keySkip_key _ true hk]
  case notPressed =>
    rw [exec_sknpVx_wired x hw, keySkip_key _ false hk]
    cases Config.isPressed s.polls k <;> rfl
  case pressedFault =>
    rw [exec_skpVx_wired x hw]
    exact keySkip_noKey true hnokey (encodeX_toNat 0xE x 0x9E)
  case notPressedFault =>
    rw [exec_sknpVx_wired x hw]
    exact keySkip_noKey false hnokey (encodeX_toNat 0xE x 0xA1)

theorem onKey_waiting (k : BitVec 4) {s : State} (hw : s.cfg.keyboardWired = true) (hwait : s.waitKey = true) :
    onKey k s = { s.setReg s.waitX (k.setWidth 8) with waitKey := false } :=
  if_pos (by rw [hw, hwait]; rfl)

theorem onKey_idle (k : BitVec 4) {s : State} (hwait : s.waitKey = false) : onKey k s = s :=
  if_neg (by rw [hwait, Bool.and_false]; exact Bool.false_ne_true)

/-- Settles O50: a step of the blocked core changes nothing, so no number of steps does, and the key lifts the wait. -/
theorem keyWaitHoldsUntilAKey : Obligations.KeyWaitHoldsUntilAKey := by
  intro x s hw
  have hblocked : step (s.beginWait x) = .next (s.beginWait x) :=
    stoppedOrBlockedStepChangesNothing (s.beginWait x) (.inr ⟨hw, rfl⟩)
  refine ⟨_, exec_ldVxK_wired x hw, rfl, run_of_step_self hblocked, fun k => ?key⟩
  case key =>
    obtain ⟨-, hothers⟩ := (s.beginWait x).setReg_frame x (k.setWidth 8)
    refine ⟨_, congrArg Host.Outcome.next (onKey_waiting k (s := s.beginWait x) hw rfl), ?number, hothers, rfl,
      fun hsafe => ⟨hsafe, .inr rfl⟩⟩
    case number =>
      show (((s.beginWait x).setReg x (k.setWidth 8)).reg x).toNat = k.toNat
      rw [State.reg_setReg_self]
      exact BitVec.toNat_setWidth_of_le (by decide)

/-! ### Reset and the host's events -/

theorem background_font (font : Vector Byte 80) {a : Nat} (h : a < 80) : Memory.background font a = font[a] :=
  dif_pos h

theorem background_zero (font : Vector Byte 80) {a : Nat} (h : 80 ≤ a) : Memory.background font a = 0 :=
  dif_neg (Nat.not_lt.mpr h)

/-- Settles O51: with no cell listed memory reads as the font and zeros, and every other piece is written out. -/
theorem resetLeavesTheTableOfValues : Obligations.ResetLeavesTheTableOfValues := by
  unfold Obligations.ResetLeavesTheTableOfValues
  intro ok
  have hreset (c : Config) (draws polls clears : Nat) :
      ok { State.resetWith c with draws := draws, polls := polls, clears := clears } :=
    ⟨fun _ h => background_font c.font h, fun _ h => background_zero c.font h,
      fun r => Vector.getElem_replicate r.isLt, rfl, rfl, rfl,
      fun _ hj => (Vector.getElem?_eq_getElem hj).trans (congrArg some (Vector.getElem_replicate hj)), rfl, rfl,
      fun _ hk => (Vector.getElem?_eq_getElem hk).trans (congrArg some (Vector.getElem_replicate hk)), rfl, rfl, rfl,
      rfl⟩
  exact ⟨hreset Config.default 0 0 0, rfl, fun s => ⟨onReset s, rfl, hreset s.cfg s.draws s.polls s.clears, rfl⟩⟩

/-- Settles O53: an image that does not fit is not well formed. -/
theorem oversizedLoadIsRejectedWhole : Obligations.OversizedLoadIsRejectedWhole := by
  intro bytes s hlen
  have hnot : ¬ imageWellFormed bytes = true := fun h => by
    have := (imageWellFormed_iff bytes).mp h
    omega
  exact ⟨if_neg hnot, congrArg Host.Outcome.next (if_neg hnot)⟩

theorem tickDown_toNat (b : Byte) : (tickDown b).toNat = b.toNat - 1 := by
  have hb := b.isLt
  unfold tickDown
  split
  · next hpos =>
    rw [BitVec.toNat_sub]
    show (2 ^ 8 - 1 + b.toNat) % 2 ^ 8 = b.toNat - 1
    omega
  · omega

/-- Settles O54: each event is one update of its own fields, or none. -/
theorem hostEventsTouchOnlyTheirState : Obligations.HostEventsTouchOnlyTheirState := by
  intro s k
  refine ⟨fun hw => ⟨_, congrArg Host.Outcome.next (if_pos hw), tickDown_toNat s.dt, tickDown_toNat s.st, rfl⟩,
    fun hw => congrArg Host.Outcome.next (if_neg (Bool.eq_false_iff.mp hw)), rfl,
    fun hwait => congrArg Host.Outcome.next (onKey_idle k hwait)⟩

end Sys2Proof.Machine
end
